-- ==== Sys2Proof/Word.lean ====
section
/-! DEFINITION. The bit vectors of the FWAD: the 64-bit operand and result ports and the 32-bit command word
(00_scope.md rule R9). -/

namespace Sys2Proof

/-- An operand port A, B, C, D or the result port R: 64 bits, bit 0 the least significant (R9, R10). -/
abbrev Word := BitVec 64

/-- The command word on `CMD[31:0]` (R9, R70). -/
abbrev Command := BitVec 32

end Sys2Proof
end

