-- ==== Sys2Proof/Syntax.lean ====
section
/-! DEFINITION. The commands of the FWAD as syntax: one constructor per row of spec/opcode_table.json, in the order of
the opcode map (30_encoding.md rule R75), each with its width and the immediate fields it carries. -/

namespace Sys2Proof

/-- The operand width `w` that WSEL selects: 8, 16, 32 or 64 for every command (R6, R71). -/
inductive Width where
  | w8
  | w16
  | w32
  | w64
  deriving DecidableEq, Repr

/-- The number of bits `w`. -/
def Width.bits : Width → Nat
  | .w8 => 8
  | .w16 => 16
  | .w32 => 32
  | .w64 => 64

/-- A command of the FWAD. `W` and `S` are the immediates PW and PS of ISSHU and ISSHS (R72); `k` is the operand count
of SATADD (R73). Every data value comes from a port (R76), so no command names one. -/
inductive Instr where
  -- bit and mask operations (40_bitmask.md)
  | maskto (w : Width)
  | masklo (w : Width)
  | revb (w : Width)
  | ispow2 (w : Width)
  | p2ceil (w : Width)
  | nextp2 (w : Width)
  | isshmask (w : Width)
  | isshu (w : Width) (W S : Nat)
  | isshs (w : Width) (W S : Nat)
  | isintn (w : Width)
  | isuintn (w : Width)
  | maxintn (w : Width)
  | minintn (w : Width)
  | maxuintn (w : Width)
  | ctlog2 (w : Width)
  -- zero detectors and barrel shifter (41_count_shift.md)
  | clz (w : Width)
  | ctz (w : Width)
  | shl (w : Width)
  | shr (w : Width)
  -- alignment (42_alignment.md)
  | minalign (w : Width)
  | alignto (w : Width)
  | alignp2 (w : Width)
  | aligndn (w : Width)
  -- division and modulo (43_division.md)
  | divnear (w : Width)
  | divceil (w : Width)
  | divceils (w : Width)
  | divfloors (w : Width)
  | divsovf (w : Width)
  | mod (w : Width)
  -- saturating and checked arithmetic (44_overflow_arith.md)
  | satadd (w : Width) (k : Nat)
  | satmul (w : Width)
  | satmad (w : Width)
  | addo (w : Width)
  | subo (w : Width)
  | mulo (w : Width)
  deriving DecidableEq, Repr

end Sys2Proof
end

