-- ==== Sys2Proof/WellFormed.lean ====
section
/-! DEFINITION. Which commands the command word can carry: the ranges of the immediate fields PW, PS (30_encoding.md
rule R72) and of SATADD's operand count (R73). -/

namespace Sys2Proof

/-- `W` fits the 7-bit field PW, 0 to 127 (R72). -/
abbrev widthParameterFits (W : Nat) : Prop := W < 128

/-- `S` fits the 7-bit field PS, 0 to 127 (R72). -/
abbrev shiftParameterFits (S : Nat) : Prop := S < 128

/-- SATADD takes 2, 3 or 4 operands (R73). -/
abbrev operandCountLegal (k : Nat) : Prop := 2 ≤ k ∧ k ≤ 4

/-- The checks a command must pass; one without immediates has none, since every width is legal (R71). -/
def Instr.wellFormed : Instr → Bool
  | .isshu _ W S => decide (widthParameterFits W ∧ shiftParameterFits S)
  | .isshs _ W S => decide (widthParameterFits W ∧ shiftParameterFits S)
  | .satadd _ k => decide (operandCountLegal k)
  | .maskto _ | .masklo _ | .revb _ | .ispow2 _ | .p2ceil _ | .nextp2 _ | .isshmask _
  | .isintn _ | .isuintn _ | .maxintn _ | .minintn _ | .maxuintn _ | .ctlog2 _
  | .clz _ | .ctz _ | .shl _ | .shr _
  | .minalign _ | .alignto _ | .alignp2 _ | .aligndn _
  | .divnear _ | .divceil _ | .divceils _ | .divfloors _ | .divsovf _ | .mod _
  | .satmul _ | .satmad _ | .addo _ | .subo _ | .mulo _ => true

/-- A command some command word encodes. -/
abbrev Instr.WellFormed (i : Instr) : Prop := i.wellFormed = true

end Sys2Proof
end

