-- ==== Sys2Proof/Decode.lean ====
section
/-! DEFINITION. The decoder of 30_encoding.md rule R77, total on all 2^32 command words and rejecting by name, and the
encoder written from the same field table (R70) and opcode map (R75). -/

namespace Sys2Proof

/-! ## The fields of a command word (R70) -/

/-- `CMD[lo + len − 1 : lo]` as an unsigned number (R11). -/
def commandField (cmd : Command) (lo len : Nat) : Nat := cmd.toNat / 2 ^ lo % 2 ^ len

/-- OPC, `CMD[5:0]`. -/
def opcField (cmd : Command) : Nat := commandField cmd 0 6

/-- WSEL, `CMD[7:6]`. -/
def wselField (cmd : Command) : Nat := commandField cmd 6 2

/-- ARITY, `CMD[9:8]`. -/
def arityField (cmd : Command) : Nat := commandField cmd 8 2

/-- PW, `CMD[16:10]`. -/
def pwField (cmd : Command) : Nat := commandField cmd 10 7

/-- PS, `CMD[23:17]`. -/
def psField (cmd : Command) : Nat := commandField cmd 17 7

/-- RSV, `CMD[31:24]`. -/
def rsvField (cmd : Command) : Nat := commandField cmd 24 8

/-- The width WSEL selects (R71). -/
def widthOfWsel : Nat → Width
  | 0 => .w8
  | 1 => .w16
  | 2 => .w32
  | _ => .w64

/-! ## Decoding (R77) -/

/-- Why a command word is illegal: the five kinds of R301. -/
inductive Illegal where
  /-- A bit of RSV is set (R74). -/
  | reservedBitSet
  /-- OPC names no operation (R75). -/
  | reservedOpcode
  /-- ARITY is not 0 on an operation other than SATADD (R73). -/
  | arityNotZero
  /-- ARITY is 3 on SATADD (R73). -/
  | arityThree
  /-- PW or PS is not 0 on an operation other than ISSHU and ISSHS (R72). -/
  | parameterNotZero
  deriving DecidableEq, Repr

/-- The opcode map (R75): the operation OPC names, at width `w`, with operand count `k` and parameters `W`, `S`. -/
def operationAt (w : Width) (k W S : Nat) (opc : Nat) : Option Instr :=
  match opc with
  | 0x01 => some (.maskto w)
  | 0x02 => some (.masklo w)
  | 0x03 => some (.revb w)
  | 0x04 => some (.ispow2 w)
  | 0x05 => some (.p2ceil w)
  | 0x06 => some (.nextp2 w)
  | 0x07 => some (.isshmask w)
  | 0x08 => some (.isshu w W S)
  | 0x09 => some (.isshs w W S)
  | 0x0A => some (.isintn w)
  | 0x0B => some (.isuintn w)
  | 0x0C => some (.maxintn w)
  | 0x0D => some (.minintn w)
  | 0x0E => some (.maxuintn w)
  | 0x0F => some (.ctlog2 w)
  | 0x10 => some (.clz w)
  | 0x11 => some (.ctz w)
  | 0x12 => some (.shl w)
  | 0x13 => some (.shr w)
  | 0x18 => some (.minalign w)
  | 0x19 => some (.alignto w)
  | 0x1A => some (.alignp2 w)
  | 0x1B => some (.aligndn w)
  | 0x20 => some (.divnear w)
  | 0x21 => some (.divceil w)
  | 0x22 => some (.divceils w)
  | 0x23 => some (.divfloors w)
  | 0x24 => some (.divsovf w)
  | 0x25 => some (.mod w)
  | 0x28 => some (.satadd w k)
  | 0x29 => some (.satmul w)
  | 0x2A => some (.satmad w)
  | 0x2B => some (.addo w)
  | 0x2C => some (.subo w)
  | 0x2D => some (.mulo w)
  | _ => none

/-- `decode(CMD)`, its tests in the order of R77's pseudocode. -/
def decode (cmd : Command) : Except Illegal Instr :=
  if rsvField cmd ≠ 0 then .error .reservedBitSet
  else
    match operationAt (widthOfWsel (wselField cmd)) (arityField cmd + 2) (pwField cmd) (psField cmd)
        (opcField cmd) with
    | none => .error .reservedOpcode
    | some i =>
      if opcField cmd ≠ 0x28 ∧ arityField cmd ≠ 0 then .error .arityNotZero
      else if opcField cmd = 0x28 ∧ arityField cmd = 3 then .error .arityThree
      else if (opcField cmd ≠ 0x08 ∧ opcField cmd ≠ 0x09) ∧ commandField cmd 10 14 ≠ 0 then
        .error .parameterNotZero
      else .ok i

/-- The instruction read from a command word whose bits are `w`; every row of the table has 32 bits, and the bits at
and above `nbits` are 0. -/
def decodeTableWord (nbits w : Nat) : Option Instr :=
  match decode (BitVec.ofNat 32 (w % 2 ^ nbits)) with
  | .ok i => some i
  | .error _ => none

/-! ## Encoding (R70, R75) -/

/-- WSEL of a width (R71). -/
def wselOf : Width → Nat
  | .w8 => 0
  | .w16 => 1
  | .w32 => 2
  | .w64 => 3

/-- The word with the five fields given and RSV = 0 (R70). -/
def commandWord (opc : Nat) (w : Width) (arity pw ps : Nat) : Command :=
  BitVec.ofNat 32 (opc + wselOf w * 2 ^ 6 + arity * 2 ^ 8 + pw * 2 ^ 10 + ps * 2 ^ 17)

/-- The command word of a well-formed command (R75; SATADD's ARITY is `k − 2`, R73). -/
def encode : Instr → Command
  | .maskto w => commandWord 0x01 w 0 0 0
  | .masklo w => commandWord 0x02 w 0 0 0
  | .revb w => commandWord 0x03 w 0 0 0
  | .ispow2 w => commandWord 0x04 w 0 0 0
  | .p2ceil w => commandWord 0x05 w 0 0 0
  | .nextp2 w => commandWord 0x06 w 0 0 0
  | .isshmask w => commandWord 0x07 w 0 0 0
  | .isshu w W S => commandWord 0x08 w 0 W S
  | .isshs w W S => commandWord 0x09 w 0 W S
  | .isintn w => commandWord 0x0A w 0 0 0
  | .isuintn w => commandWord 0x0B w 0 0 0
  | .maxintn w => commandWord 0x0C w 0 0 0
  | .minintn w => commandWord 0x0D w 0 0 0
  | .maxuintn w => commandWord 0x0E w 0 0 0
  | .ctlog2 w => commandWord 0x0F w 0 0 0
  | .clz w => commandWord 0x10 w 0 0 0
  | .ctz w => commandWord 0x11 w 0 0 0
  | .shl w => commandWord 0x12 w 0 0 0
  | .shr w => commandWord 0x13 w 0 0 0
  | .minalign w => commandWord 0x18 w 0 0 0
  | .alignto w => commandWord 0x19 w 0 0 0
  | .alignp2 w => commandWord 0x1A w 0 0 0
  | .aligndn w => commandWord 0x1B w 0 0 0
  | .divnear w => commandWord 0x20 w 0 0 0
  | .divceil w => commandWord 0x21 w 0 0 0
  | .divceils w => commandWord 0x22 w 0 0 0
  | .divfloors w => commandWord 0x23 w 0 0 0
  | .divsovf w => commandWord 0x24 w 0 0 0
  | .mod w => commandWord 0x25 w 0 0 0
  | .satadd w k => commandWord 0x28 w (k - 2) 0 0
  | .satmul w => commandWord 0x29 w 0 0 0
  | .satmad w => commandWord 0x2A w 0 0 0
  | .addo w => commandWord 0x2B w 0 0 0
  | .subo w => commandWord 0x2C w 0 0 0
  | .mulo w => commandWord 0x2D w 0 0 0

end Sys2Proof
end

