-- ==== Sys2Proof/Config.lean ====
section
/-! DEFINITION. What an implementation of the FWAD fixes (LATENCY and MAX_OUTSTANDING, 00_scope.md rule R8), and the
free values: READY_POLICY, as the lengths of its stalls (R8; 70_reset_and_hazards.md rule R404), REQ_READY in a reset cycle
(93_implementation_defined.md I13), and what stands on the response ports while RSP_VALID is 0 (10_state.md rule R43; I11). -/

namespace Sys2Proof

/-- The open implementation parameters of R8 that are numbers. Both are natural numbers of at least 1, so each is
stored as its excess over 1 and an illegal 0 cannot be written. A state carries its parameters, no step changes them,
and every statement holds for all of them (log entry 1). -/
structure Params where
  /-- LATENCY − 1. -/
  latencyLessOne : Nat
  /-- MAX_OUTSTANDING − 1. -/
  maxOutstandingLessOne : Nat
  deriving DecidableEq, Repr

/-- LATENCY: the rising edges from the acceptance of a request to its response becoming valid (R8, R36). -/
def Params.latency (p : Params) : Nat := p.latencyLessOne + 1

/-- MAX_OUTSTANDING: how many accepted requests may await their responses (R8, R42). -/
def Params.maxOutstanding (p : Params) : Nat := p.maxOutstandingLessOne + 1

/-- FREE VALUE (no body): READY_POLICY. After a cycle in which it lets REQ_READY be 1, it stalls for this many cycles: any
number, with no bound, but finite, which is the fairness of R404; 0 is no stall (R8, R34, I13; log entry 2). -/
opaque Config.readyStall : Nat → Nat

/-- FREE VALUE (no body): REQ_READY in a cycle with rst = 1 (R45, I13; log entry 2). -/
opaque Config.readyInReset : Nat → Bool

/-- FREE VALUE (no body): what R carries in a cycle with RSP_VALID = 0 (R43, R45, I11; log entry 4). -/
opaque Config.unspecifiedR : Nat → Word

/-- FREE VALUE (no body): what OV carries in a cycle with RSP_VALID = 0 (R43, R45, I11; log entry 4). -/
opaque Config.unspecifiedOV : Nat → Bool

/-- FREE VALUE (no body): what INV carries in a cycle with RSP_VALID = 0 (R43, R45, I11; log entry 4). -/
opaque Config.unspecifiedINV : Nat → Bool

/-- FREE VALUE (no body): what ILL carries in a cycle with RSP_VALID = 0 (R43, R45, I11; log entry 4). -/
opaque Config.unspecifiedILL : Nat → Bool

end Sys2Proof
end

