-- ==== Sys2Proof/Machine/State.lean ====
section
/-! DEFINITION. The state of the FWAD with the ports around it, all of it plain data (10_state.md): the in-flight queue
Q (R42), the values on the input ports (R31 to R33), the implementation parameters (00_scope.md R8), and the state after
reset (R45). The output ports are functions of it (Machine/Ops.lean). The FWAD has no register, program counter or memory
(R37 to R40, 20_memory.md R50), so State has no field for one. -/

namespace Sys2Proof.Machine

/-- What a request carries: the command word and the four operand ports, sampled whole (R31, R34, R53). -/
structure Request where
  cmd : Command
  a : Word
  b : Word
  c : Word
  d : Word
  deriving DecidableEq, Repr

/-- What a response carries: the result and the three flags (R32, R35). -/
structure Response where
  r : Word
  ov : Bool
  inv : Bool
  ill : Bool
  deriving DecidableEq, Repr

/-- An entry of Q: the request, its age in rising edges (R42), and its response, computed at acceptance as R42 allows
(log entry 5). -/
structure Entry where
  request : Request
  age : Nat
  response : Response
  deriving DecidableEq, Repr

/-- What the host drives in one clock cycle: the input ports (R31 to R33). -/
structure Cycle where
  rst : Bool
  reqValid : Bool
  request : Request
  rspReady : Bool
  deriving DecidableEq, Repr

/-- A cycle in which the host drives nothing: no reset, no request, no readiness to take a response (log entry 3). -/
def Cycle.idle : Cycle :=
  { rst := false, reqValid := false, request := ⟨0, 0, 0, 0, 0⟩, rspReady := false }

/-- The state of the FWAD and of what is driven into it. -/
structure State where
  /-- LATENCY and MAX_OUTSTANDING (R8; log entry 1). -/
  params : Params
  /-- Q, the oldest entry first (R42). -/
  queue : List Entry
  /-- The input ports in the current cycle: what the next rising edge samples (R34). -/
  now : Cycle
  /-- What is driven in the cycles after it (log entry 3). -/
  upcoming : List Cycle
  /-- What is driven after those, over and over; nothing where the list is empty (log entry 3). -/
  recurring : List Cycle
  /-- In how many cycles, from the current one on, READY_POLICY still keeps REQ_READY at 0 (R8, R404; log entry 2). -/
  stall : Nat
  /-- The model's own: the argument of the free values (log entries 2 and 4). -/
  freeIndex : Nat
  deriving DecidableEq, Repr

/-- Why the FWAD stops with a fault: never. "No FWAD command raises a synchronous exception, aborts, halts the FWAD or
changes any later response" (60_exceptions.md R300), so there is no constructor, and this is exact, neither safe nor
unsafe. -/
inductive Fault where
  deriving DecidableEq, Repr

/-- Why the model gives an instruction no meaning. -/
inductive Refusal where
  /-- Raised by an arm of exec whose instruction has no meaning yet (safe). No arm of this model raises it. -/
  | notModelled (mnemonic : String)
  deriving DecidableEq, Repr

/-- The machine right after reset (R45): Q is empty, so RSP_VALID is 0. The parameters are the least legal ones (log
entry 1), READY_POLICY does not stall the first cycle (log entry 2), nothing is driven (log entry 3), and no free value has
been drawn (log entry 4). -/
def State.reset : State :=
  { params := { latencyLessOne := 0, maxOutstandingLessOne := 0 }
    queue := []
    now := Cycle.idle
    upcoming := []
    recurring := []
    stall := 0
    freeIndex := 0 }

end Sys2Proof.Machine
end

