-- ==== Sys2Proof/Machine/Arith.lean ====
section
/-! DEFINITION. The mathematics of 00_scope.md rules R13 and R14: the extreme values of a width, explicit wrapping, exact
division, and the bit counts, all over Nat and Int with no width and no wrap. -/

namespace Sys2Proof.Machine

/-- `UMAX_w = 2^w − 1` (R13). -/
def uMax (w : Width) : Nat := 2 ^ w.bits - 1

/-- `SMAX_w = 2^(w−1) − 1` (R13). -/
def sMax (w : Width) : Int := 2 ^ (w.bits - 1) - 1

/-- `SMIN_w = −2^(w−1)` (R13). -/
def sMin (w : Width) : Int := -2 ^ (w.bits - 1)

/-- `wrap_w(z) = z mod 2^w`, in `[0, 2^w)` (R13). -/
def wrap (w : Width) (z : Int) : Nat := (z % 2 ^ w.bits).toNat

/-- `swrap_w(z)`: `wrap_w(z)` read as two's-complement (R13). -/
def swrap (w : Width) (z : Int) : Int :=
  if wrap w z < 2 ^ (w.bits - 1) then (wrap w z : Int) else (wrap w z : Int) - 2 ^ w.bits

/-- `fdiv(a, b) = ⌊a / b⌋`, for `b ≠ 0` (R14). -/
def fdiv (a b : Int) : Int := Int.fdiv a b

/-- `cdiv(a, b) = ⌈a / b⌉`, for `b ≠ 0` (R14). -/
def cdiv (a b : Int) : Int := -Int.fdiv (-a) b

/-- `emod(a, b) = a − |b| × ⌊a / |b|⌋`, for `b ≠ 0` (R14). -/
def emod (a b : Int) : Int := a - b.natAbs * fdiv a b.natAbs

/-- `bitlen(x)`: the least `k` with `x < 2^k` (R14). -/
def bitlen (x : Nat) : Nat := if x = 0 then 0 else Nat.log2 x + 1

/-- The number of 1 bits among the low `k` bits of `x`. -/
def onesBelow : Nat → Nat → Nat
  | 0, _ => 0
  | k + 1, x => x % 2 + onesBelow k (x / 2)

/-- `popcount(x)`: the number of 1 bits of `x` (R14). -/
def popcount (x : Nat) : Nat := onesBelow (bitlen x) x

/-- `ispow2(x)`: `popcount(x) = 1` (R14). -/
def ispow2 (x : Nat) : Bool := popcount x == 1

/-- The number of zero bits below the lowest 1 bit among the low `k` bits of `x`, or `k` if there is none. -/
def zerosBelow : Nat → Nat → Nat
  | 0, _ => 0
  | k + 1, x => if x % 2 = 1 then 0 else zerosBelow k (x / 2) + 1

/-- The number of trailing zero bits of `x`, that is `max{ k : emod(x, 2^k) = 0 }`, for `x ≠ 0` (R106, R141). -/
def trailingZeros (x : Nat) : Nat := zerosBelow (bitlen x) x

/-- The low `k` bits of `x` in the opposite order: `r[i] = x[k−1−i]` (R102). -/
def reverseLow : Nat → Nat → Nat
  | 0, _ => 0
  | k + 1, x => x % 2 * 2 ^ k + reverseLow k (x / 2)

/-- The least `r ≥ v` congruent to `sk` modulo `al`: `v + emod(sk − v, al)`, for `al ≠ 0` (R161, R162). -/
def alignUp (v al sk : Nat) : Nat := v + (emod ((sk : Int) - v) al).toNat

end Sys2Proof.Machine
end

