-- ==== Sys2Proof/Machine/Operands.lean ====
section
/-! DEFINITION. How an operand port is read (00_scope.md rule R12, 30_encoding.md rule R76) and how a result stands on R
(R15). -/

namespace Sys2Proof.Machine

/-- `u(P) = P[w−1:0]`, unsigned; the bits above are ignored (R12). -/
def readU (w : Width) (p : Word) : Nat := p.toNat % 2 ^ w.bits

/-- `s(P)`: the two's-complement value of `P[w−1:0]` (R12). -/
def readS (w : Width) (p : Word) : Int :=
  if p.getLsbD (w.bits - 1) then (readU w p : Int) - 2 ^ w.bits else readU w p

/-- `n(P) = P[63:0]`, unsigned: a bit count or a shift amount (R7, R12). -/
def readN (p : Word) : Nat := p.toNat

/-- `n'`: the bit count cut at the width (R100, R101, R111 to R113). -/
def clampCount (w : Width) (n : Nat) : Nat := if w.bits < n then w.bits else n

/-- `U(v)`: `zext_64(v)` for an unsigned `v` (R15). -/
def writeU (v : Nat) : Word := BitVec.ofNat 64 v

/-- `S(v)`: `sext_64` of the w-bit two's-complement pattern of `v` (R15). -/
def writeS (w : Width) (v : Int) : Word := (BitVec.ofInt w.bits v).signExtend 64

/-- `B(b)`: 1 for true, 0 for false (R15). -/
def writeB (b : Bool) : Word := if b then 1 else 0

/-- ISSHMASK's `X({41'b0, L[6:0], 1'b0, t[6:0], 7'b0, 1'b1})` (R106). -/
def packRun (t L : Nat) : Word :=
  (0#41 ++ BitVec.ofNat 7 L ++ 0#1 ++ BitVec.ofNat 7 t ++ 0#7 ++ 1#1 : BitVec 64)

end Sys2Proof.Machine
end

