-- ==== Sys2Proof/Machine/Flags.lean ====
section
/-! DEFINITION. The conditions that set OV and INV, each in one place (60_exceptions.md rules R302 and R303), and the
responses they go into (10_state.md rule R35: a flag a rule does not set is 0). -/

namespace Sys2Proof.Machine

/-! ## Conditions -/

/-- A bit count above the width is out of domain (R7, R302). -/
def countOutOfDomain (w : Width) (n : Nat) : Bool := decide (w.bits < n)

/-- An exact unsigned result exceeds `UMAX_w` (R303). -/
def exceedsUnsigned (w : Width) (z : Nat) : Bool := decide (uMax w < z)

/-- An exact signed result lies outside `[SMIN_w, SMAX_w]` (R203 to R205). -/
def outsideSigned (w : Width) (z : Int) : Bool := decide (z < sMin w ∨ sMax w < z)

/-- The signed division that overflows: `a = SMIN_w` and `b = −1` (R182 to R184). -/
def quotientOverflows (w : Width) (a b : Int) : Bool := decide (a = sMin w ∧ b = -1)

/-! ## Responses -/

/-- A response with no flag set. -/
def result (r : Word) : Response := { r := r, ov := false, inv := false, ill := false }

/-- A response whose only flag is OV, set or not. -/
def resultOV (r : Word) (ov : Bool) : Response := { r := r, ov := ov, inv := false, ill := false }

/-- A response whose only flag is INV, set or not. -/
def resultINV (r : Word) (inv : Bool) : Response := { r := r, ov := false, inv := inv, ill := false }

/-- The response to an illegal command: `R = 0, OV = 0, INV = 0, ILL = 1` (R77, R301). -/
def illegalResponse : Response := { r := 0, ov := false, inv := false, ill := true }

/-- The unsigned result `z`, or 0 with OV where `z` exceeds `UMAX_w` (R104, R105, R161). -/
def zeroOnOverflow (w : Width) (z : Nat) : Response :=
  if exceedsUnsigned w z then resultOV (writeU 0) true else result (writeU z)

/-- The unsigned result `z`, or `UMAX_w` with OV where `z` exceeds it (R200 to R202). -/
def saturated (w : Width) (z : Nat) : Response :=
  if exceedsUnsigned w z then resultOV (writeU (uMax w)) true else result (writeU z)

/-- The wraparound of the exact signed result `z`, with OV where it does not fit (R203 to R205). -/
def wrapped (w : Width) (z : Int) : Response := resultOV (writeS w (swrap w z)) (outsideSigned w z)

end Sys2Proof.Machine
end

