-- ==== Sys2Proof/Machine/Ops.lean ====
section
/-! DEFINITION. The named operations on the state: the output ports, accepting and answering a request, serving the
queue, resetting it, and moving to the next clock cycle (10_state.md rules R34 to R43, 70_reset_and_hazards.md rules R400
and R401). The FWAD takes no exception and returns from none (60_exceptions.md R306, R307); in their place stands
answering an illegal command (R301). -/

namespace Sys2Proof.Machine

/-! ## Output ports -/

/-- Q holds fewer than MAX_OUTSTANDING entries (R34). -/
def State.hasRoom (s : State) : Bool := decide (s.queue.length < s.params.maxOutstanding)

/-- REQ_READY: 0 while Q is full, else 1 exactly where READY_POLICY does not stall (R34); unspecified in a cycle with rst = 1
(R45; log entry 2). -/
def State.reqReady (s : State) : Bool :=
  if s.now.rst then Config.readyInReset s.freeIndex else decide (s.stall = 0) && s.hasRoom

/-- RSP_VALID: the oldest entry of Q has been in Q for at least LATENCY rising edges (R36; log entry 6). -/
def State.rspValid (s : State) : Bool :=
  match s.queue with
  | [] => false
  | e :: _ => decide (s.params.latency ≤ e.age)

/-- What the free values put on the response ports (R43, I11; log entry 4). -/
def unspecifiedResponse (n : Nat) : Response :=
  { r := Config.unspecifiedR n, ov := Config.unspecifiedOV n, inv := Config.unspecifiedINV n,
    ill := Config.unspecifiedILL n }

/-- The ports R, OV, INV, ILL: the response of the oldest entry while RSP_VALID is 1 (R36), and unspecified otherwise
(R43). -/
def State.rspPorts (s : State) : Response :=
  match s.queue with
  | [] => unspecifiedResponse s.freeIndex
  | e :: _ => if s.params.latency ≤ e.age then e.response else unspecifiedResponse s.freeIndex

/-! ## What happens at a rising edge -/

/-- The next rising edge accepts the request on the ports (R34, R400). -/
def State.accepts (s : State) : Bool := !s.now.rst && s.now.reqValid && s.reqReady

/-- The next rising edge consumes the response on the ports (R36). -/
def State.consumes (s : State) : Bool := s.rspValid && s.now.rspReady

/-- One edge in Q. -/
def Entry.older (e : Entry) : Entry := { e with age := e.age + 1 }

/-- The queue's own part of an edge: a consumed response leaves it and the entries that stay grow older (R36, R42; log
entry 7). -/
def State.serve (s : State) : State :=
  { s with queue := (if s.consumes then s.queue.tail else s.queue).map Entry.older }

/-- A reset edge: Q is emptied and its requests get no response (R400, R401). -/
def State.resetEdge (s : State) : State := { s with queue := [] }

/-- What is driven after the current cycle: what is listed and, once that has run out, what recurs (log entry 3). -/
def State.toCome (s : State) : List Cycle := if s.upcoming = [] then s.recurring else s.upcoming

/-- READY_POLICY after one cycle: a stall counts down, and after a cycle without a stall the next one begins (R404; log
entry 2). -/
def State.nextStall (s : State) : Nat := if s.stall = 0 then Config.readyStall s.freeIndex else s.stall - 1

/-- The next cycle: the ports take the values driven in it (log entry 3), READY_POLICY goes on (log entry 2), the parameters
stay, and new free values stand on the response ports (log entry 4). -/
def State.nextCycle (s : State) : State :=
  { s with now := s.toCome.headD Cycle.idle, upcoming := s.toCome.tail, stall := s.nextStall, freeIndex := s.freeIndex + 1 }

/-- Append the request on the ports to Q with age 0 and the response `r` (R34, R42; log entry 5). -/
def State.enqueue (s : State) (r : Response) : State :=
  { s with queue := s.queue ++ [{ request := s.now.request, age := 0, response := r }] }

/-- Every meaning's last act: the request gets the response `r`, and nothing else happens (R35, R300). -/
def State.answer (s : State) (r : Response) : Host.Outcome State Fault Refusal := .next (s.enqueue r)

/-- An illegal command is answered like any request, with ILL, and reads no operand (R77, R301). -/
def State.answerIllegal (s : State) : Host.Outcome State Fault Refusal := s.answer illegalResponse

/-- Where an outcome goes on, apply `f` to its state. -/
def onNext (f : State → State) : Host.Outcome State Fault Refusal → Host.Outcome State Fault Refusal
  | .next s => .next (f s)
  | .fault r => .fault r
  | .refused r => .refused r

/-! ## The request that the next edge accepts -/

/-- The ports carry the command `cmd`, valid, in a cycle that does not reset; the operand ports keep their values. -/
def Cycle.presenting (c : Cycle) (cmd : Command) : Cycle :=
  { c with rst := false, reqValid := true, request := { c.request with cmd := cmd } }

/-- The state whose next edge accepts `cmd`: the ports carry it, READY_POLICY does not stall, and Q, where it is full, loses its
youngest entry (log entry 9). -/
def State.presenting (s : State) (cmd : Command) : State :=
  { s with now := s.now.presenting cmd, stall := 0, queue := s.queue.take s.params.maxOutstandingLessOne }

end Sys2Proof.Machine
end

