-- ==== Sys2Proof/Machine/Alignment.lean ====
section
/-! DEFINITION. The alignment operations (42_alignment.md rules R160 to R163). -/

namespace Sys2Proof.Machine

/-- MINALIGN a, b: the lowest 1 bit of `a OR b`, 0 for (0, 0) (R160; 90_conflicts.md C1). -/
def respMinalign (w : Width) (q : Request) : Response :=
  let o := readU w q.a ||| readU w q.b
  result (writeU (if o = 0 then 0 else 2 ^ trailingZeros o))

def execMinalign (w : Width) (s : State) : Host.Outcome State Fault Refusal := s.answer (respMinalign w s.now.request)

/-- ALIGNTO value, align, skew: the least value at or above it congruent to skew; 0 with OV where it does not fit (R161). -/
def respAlignto (w : Width) (q : Request) : Response :=
  let v := readU w q.a
  let al := readU w q.b
  let sk := readU w q.c
  if al = 0 then resultINV (writeU v) true else zeroOnOverflow w (alignUp v al sk)

def execAlignto (w : Width) (s : State) : Host.Outcome State Fault Refusal := s.answer (respAlignto w s.now.request)

/-- ALIGNP2 value, align: rounded up to a multiple of a power of two, the carry bit kept where R has room for it (R162). -/
def respAlignp2 (w : Width) (q : Request) : Response :=
  let v := readU w q.a
  let al := readU w q.b
  if !ispow2 al then resultINV (writeU v) true
  else
    let r := alignUp v al 0
    if exceedsUnsigned w r then resultOV (if w.bits < 64 then BitVec.ofNat 64 r else 0) true
    else result (writeU r)

def execAlignp2 (w : Width) (s : State) : Host.Outcome State Fault Refusal := s.answer (respAlignp2 w s.now.request)

/-- ALIGNDN value, align: rounded down to a multiple (R163). -/
def respAligndn (w : Width) (q : Request) : Response :=
  let v := readU w q.a
  let al := readU w q.b
  if al = 0 then resultINV (writeU v) true else result (writeU ((v : Int) - emod v al).toNat)

def execAligndn (w : Width) (s : State) : Host.Outcome State Fault Refusal := s.answer (respAligndn w s.now.request)

end Sys2Proof.Machine
end

