-- ==== Sys2Proof/Machine/BitMask.lean ====
section
/-! DEFINITION. The bit and mask operations (40_bitmask.md rules R100 to R114): for each command its response as a function
of its request, and its meaning, which answers with it. -/

namespace Sys2Proof.Machine

/-- MASKTO n: the trailing `n` ones (R100). -/
def respMaskto (w : Width) (q : Request) : Response :=
  let n := readN q.a
  resultINV (writeU (2 ^ clampCount w n - 1)) (countOutOfDomain w n)

def execMaskto (w : Width) (s : State) : Host.Outcome State Fault Refusal := s.answer (respMaskto w s.now.request)

/-- MASKLO n: the leading `n` ones of the width (R101). -/
def respMasklo (w : Width) (q : Request) : Response :=
  let n := readN q.a
  let n' := clampCount w n
  resultINV (writeU ((2 ^ n' - 1) * 2 ^ (w.bits - n'))) (countOutOfDomain w n)

def execMasklo (w : Width) (s : State) : Host.Outcome State Fault Refusal := s.answer (respMasklo w s.now.request)

/-- REVB x: the bits in the opposite order within the width (R102). -/
def respRevb (w : Width) (q : Request) : Response := result (writeU (reverseLow w.bits (readU w q.a)))

def execRevb (w : Width) (s : State) : Host.Outcome State Fault Refusal := s.answer (respRevb w s.now.request)

/-- ISPOW2 x (R103). -/
def respIspow2 (w : Width) (q : Request) : Response := result (writeB (popcount (readU w q.a) == 1))

def execIspow2 (w : Width) (s : State) : Host.Outcome State Fault Refusal := s.answer (respIspow2 w s.now.request)

/-- P2CEIL x: the least power of two at or above `x`, 0 for 0 (R104). -/
def respP2ceil (w : Width) (q : Request) : Response :=
  let x := readU w q.a
  if x = 0 then result (writeU 0) else zeroOnOverflow w (2 ^ bitlen (x - 1))

def execP2ceil (w : Width) (s : State) : Host.Outcome State Fault Refusal := s.answer (respP2ceil w s.now.request)

/-- NEXTP2 x: the least power of two above `x` (R105). -/
def respNextp2 (w : Width) (q : Request) : Response := zeroOnOverflow w (2 ^ bitlen (readU w q.a))

def execNextp2 (w : Width) (s : State) : Host.Outcome State Fault Refusal := s.answer (respNextp2 w s.now.request)

/-- ISSHMASK x: whether the 1 bits form one run, with its start and length (R106). -/
def respIsshmask (w : Width) (q : Request) : Response :=
  let x := readU w q.a
  if x = 0 then result 0
  else
    let t := trailingZeros x
    if ispow2 (x / 2 ^ t + 1) then result (packRun t (popcount x)) else result 0

def execIsshmask (w : Width) (s : State) : Host.Outcome State Fault Refusal := s.answer (respIsshmask w s.now.request)

/-- ISSHU #W, #S, x: `x` is a `W`-bit unsigned value shifted left by `S` (R107). -/
def respIsshu (w : Width) (W S : Nat) (q : Request) : Response :=
  let x := readU w q.a
  result (writeB (x % 2 ^ S == 0 && decide (x / 2 ^ S < 2 ^ W)))

def execIsshu (w : Width) (W S : Nat) (s : State) : Host.Outcome State Fault Refusal :=
  s.answer (respIsshu w W S s.now.request)

/-- ISSHS #W, #S, x: `x` is a `W`-bit signed value shifted left by `S`; 0 is the only 0-bit value (R108). -/
def respIsshs (w : Width) (W S : Nat) (q : Request) : Response :=
  let x := readS w q.a
  if W = 0 then result (writeB (x == 0))
  else
    let v := fdiv x (2 ^ S)
    result (writeB (emod x (2 ^ S) == 0 && decide (-2 ^ (W - 1) ≤ v ∧ v ≤ 2 ^ (W - 1) - 1)))

def execIsshs (w : Width) (W S : Nat) (s : State) : Host.Outcome State Fault Refusal :=
  s.answer (respIsshs w W S s.now.request)

/-- ISINTN n, x: the signed `x` fits in `n` bits; beyond the width every `x` does, with INV (R109; log entry 10). -/
def respIsintn (w : Width) (q : Request) : Response :=
  let n := readN q.a
  let x := readS w q.b
  let n' := clampCount w n
  if n' = 0 then resultINV (writeB (x == 0)) (countOutOfDomain w n)
  else resultINV (writeB (decide (-2 ^ (n' - 1) ≤ x ∧ x ≤ 2 ^ (n' - 1) - 1))) (countOutOfDomain w n)

def execIsintn (w : Width) (s : State) : Host.Outcome State Fault Refusal := s.answer (respIsintn w s.now.request)

/-- ISUINTN n, x: the unsigned `x` fits in `n` bits; beyond the width every `x` does, with INV (R110; log entry 10). -/
def respIsuintn (w : Width) (q : Request) : Response :=
  let n := readN q.a
  resultINV (writeB (decide (readU w q.b < 2 ^ clampCount w n))) (countOutOfDomain w n)

def execIsuintn (w : Width) (s : State) : Host.Outcome State Fault Refusal := s.answer (respIsuintn w s.now.request)

/-- MAXINTN n: the largest `n`-bit signed value (R111). -/
def respMaxintn (w : Width) (q : Request) : Response :=
  let n := readN q.a
  let n' := clampCount w n
  resultINV (writeS w (if n' = 0 then 0 else 2 ^ (n' - 1) - 1)) (countOutOfDomain w n)

def execMaxintn (w : Width) (s : State) : Host.Outcome State Fault Refusal := s.answer (respMaxintn w s.now.request)

/-- MININTN n: the smallest `n`-bit signed value (R112). -/
def respMinintn (w : Width) (q : Request) : Response :=
  let n := readN q.a
  let n' := clampCount w n
  resultINV (writeS w (if n' = 0 then 0 else -2 ^ (n' - 1))) (countOutOfDomain w n)

def execMinintn (w : Width) (s : State) : Host.Outcome State Fault Refusal := s.answer (respMinintn w s.now.request)

/-- MAXUINTN n: the largest `n`-bit unsigned value (R113). -/
def respMaxuintn (w : Width) (q : Request) : Response :=
  let n := readN q.a
  resultINV (writeU (2 ^ clampCount w n - 1)) (countOutOfDomain w n)

def execMaxuintn (w : Width) (s : State) : Host.Outcome State Fault Refusal := s.answer (respMaxuintn w s.now.request)

/-- CTLOG2 x: the index of the highest 1 bit, with INV where `x` is not a power of two (R114). -/
def respCtlog2 (w : Width) (q : Request) : Response :=
  let x := readU w q.a
  if x = 0 then resultINV (writeU 0) true else resultINV (writeU (bitlen x - 1)) (!ispow2 x)

def execCtlog2 (w : Width) (s : State) : Host.Outcome State Fault Refusal := s.answer (respCtlog2 w s.now.request)

end Sys2Proof.Machine
end

