-- ==== Sys2Proof/Machine/CountShift.lean ====
section
/-! DEFINITION. The zero detectors and the barrel shifter (41_count_shift.md rules R140 to R143). -/

namespace Sys2Proof.Machine

/-- CLZ x: the zero bits above the highest 1 bit; `w` for 0 (R140). -/
def respClz (w : Width) (q : Request) : Response := result (writeU (w.bits - bitlen (readU w q.a)))

def execClz (w : Width) (s : State) : Host.Outcome State Fault Refusal := s.answer (respClz w s.now.request)

/-- CTZ x: the zero bits below the lowest 1 bit; `w` for 0 (R141). -/
def respCtz (w : Width) (q : Request) : Response :=
  let x := readU w q.a
  result (writeU (if x = 0 then w.bits else trailingZeros x))

def execCtz (w : Width) (s : State) : Host.Outcome State Fault Refusal := s.answer (respCtz w s.now.request)

/-- SHL x, s: shifted left within the width; 0 for an amount of `w` or more (R142). -/
def respShl (w : Width) (q : Request) : Response :=
  let x := readU w q.a
  let n := readN q.b
  result (writeU (if w.bits ≤ n then 0 else wrap w (x * 2 ^ n)))

def execShl (w : Width) (s : State) : Host.Outcome State Fault Refusal := s.answer (respShl w s.now.request)

/-- SHR x, s: shifted right with zeros; 0 for an amount of `w` or more (R143). -/
def respShr (w : Width) (q : Request) : Response :=
  let x := readU w q.a
  let n := readN q.b
  result (writeU (if w.bits ≤ n then 0 else x / 2 ^ n))

def execShr (w : Width) (s : State) : Host.Outcome State Fault Refusal := s.answer (respShr w s.now.request)

end Sys2Proof.Machine
end

