-- ==== Sys2Proof/Machine/Division.lean ====
section
/-! DEFINITION. The division and modulo operations (43_division.md rules R180 to R185), exact over the integers. -/

namespace Sys2Proof.Machine

/-- The response to a zero divisor: R = 0 with INV (R180 to R183, R185). -/
def zeroDivisor : Response := resultINV (writeU 0) true

/-- DIVNEAR a, b: unsigned, to nearest, ties up; the sum is not wrapped (R180). -/
def respDivnear (w : Width) (q : Request) : Response :=
  let a := readU w q.a
  let b := readU w q.b
  if b = 0 then zeroDivisor else result (writeU (fdiv (a + fdiv b 2) b).toNat)

def execDivnear (w : Width) (s : State) : Host.Outcome State Fault Refusal := s.answer (respDivnear w s.now.request)

/-- DIVCEIL a, b: unsigned, rounded up (R181). -/
def respDivceil (w : Width) (q : Request) : Response :=
  let a := readU w q.a
  let b := readU w q.b
  if b = 0 then zeroDivisor else result (writeU (cdiv a b).toNat)

def execDivceil (w : Width) (s : State) : Host.Outcome State Fault Refusal := s.answer (respDivceil w s.now.request)

/-- DIVCEILS a, b: signed, toward plus infinity; `SMIN_w` with OV for `(SMIN_w, −1)` (R182). -/
def respDivceils (w : Width) (q : Request) : Response :=
  let a := readS w q.a
  let b := readS w q.b
  if b = 0 then zeroDivisor
  else if quotientOverflows w a b then resultOV (writeS w (sMin w)) true
  else result (writeS w (cdiv a b))

def execDivceils (w : Width) (s : State) : Host.Outcome State Fault Refusal := s.answer (respDivceils w s.now.request)

/-- DIVFLOORS a, b: signed, toward minus infinity; `SMIN_w` with OV for `(SMIN_w, −1)` (R183). -/
def respDivfloors (w : Width) (q : Request) : Response :=
  let a := readS w q.a
  let b := readS w q.b
  if b = 0 then zeroDivisor
  else if quotientOverflows w a b then resultOV (writeS w (sMin w)) true
  else result (writeS w (fdiv a b))

def execDivfloors (w : Width) (s : State) : Host.Outcome State Fault Refusal := s.answer (respDivfloors w s.now.request)

/-- DIVSOVF a, b: whether the truncating division would overflow, answered on R (R184). -/
def respDivsovf (w : Width) (q : Request) : Response :=
  result (writeB (quotientOverflows w (readS w q.a) (readS w q.b)))

def execDivsovf (w : Width) (s : State) : Host.Outcome State Fault Refusal := s.answer (respDivsovf w s.now.request)

/-- MOD a, b: the non-negative residue, with INV where `b < 0` (R185; 90_conflicts.md C2). -/
def respMod (w : Width) (q : Request) : Response :=
  let a := readS w q.a
  let b := readS w q.b
  if b = 0 then zeroDivisor else resultINV (writeS w (emod a b)) (decide (b < 0))

def execMod (w : Width) (s : State) : Host.Outcome State Fault Refusal := s.answer (respMod w s.now.request)

end Sys2Proof.Machine
end

