-- ==== Sys2Proof/Machine/OverflowArith.lean ====
section
/-! DEFINITION. The saturating and checked arithmetic (44_overflow_arith.md rules R200 to R205), computed exactly and then
narrowed. -/

namespace Sys2Proof.Machine

/-- SATADD: the saturating sum of `k` unsigned operands; the ports beyond `k` are ignored (R200). -/
def respSatadd (w : Width) (k : Nat) (q : Request) : Response :=
  saturated w
    (readU w q.a + readU w q.b + (if 3 ≤ k then readU w q.c else 0) + (if k = 4 then readU w q.d else 0))

def execSatadd (w : Width) (k : Nat) (s : State) : Host.Outcome State Fault Refusal :=
  s.answer (respSatadd w k s.now.request)

/-- SATMUL a, b: the saturating unsigned product (R201; 90_conflicts.md C3). -/
def respSatmul (w : Width) (q : Request) : Response := saturated w (readU w q.a * readU w q.b)

def execSatmul (w : Width) (s : State) : Host.Outcome State Fault Refusal := s.answer (respSatmul w s.now.request)

/-- SATMAD a, b, c: `a × b + c`, saturating at each stage (R202). -/
def respSatmad (w : Width) (q : Request) : Response :=
  let p := readU w q.a * readU w q.b
  if exceedsUnsigned w p then resultOV (writeU (uMax w)) true else saturated w (p + readU w q.c)

def execSatmad (w : Width) (s : State) : Host.Outcome State Fault Refusal := s.answer (respSatmad w s.now.request)

/-- ADDO a, b: the signed sum with wraparound (R203). -/
def respAddo (w : Width) (q : Request) : Response := wrapped w (readS w q.a + readS w q.b)

def execAddo (w : Width) (s : State) : Host.Outcome State Fault Refusal := s.answer (respAddo w s.now.request)

/-- SUBO a, b: the signed difference with wraparound (R204). -/
def respSubo (w : Width) (q : Request) : Response := wrapped w (readS w q.a - readS w q.b)

def execSubo (w : Width) (s : State) : Host.Outcome State Fault Refusal := s.answer (respSubo w s.now.request)

/-- MULO a, b: the signed product with wraparound (R205). -/
def respMulo (w : Width) (q : Request) : Response := wrapped w (readS w q.a * readS w q.b)

def execMulo (w : Width) (s : State) : Host.Outcome State Fault Refusal := s.answer (respMulo w s.now.request)

end Sys2Proof.Machine
end

