-- ==== Sys2Proof/Machine/Dispatch.lean ====
section
/-! DEFINITION. The dispatch: one arm per command, each one direct call of its meaning. -/

namespace Sys2Proof.Machine

def exec (i : Instr) (s : State) : Host.Outcome State Fault Refusal :=
  match i with
  | .maskto w => Sys2Proof.Machine.execMaskto w s
  | .masklo w => Sys2Proof.Machine.execMasklo w s
  | .revb w => Sys2Proof.Machine.execRevb w s
  | .ispow2 w => Sys2Proof.Machine.execIspow2 w s
  | .p2ceil w => Sys2Proof.Machine.execP2ceil w s
  | .nextp2 w => Sys2Proof.Machine.execNextp2 w s
  | .isshmask w => Sys2Proof.Machine.execIsshmask w s
  | .isshu w W S => Sys2Proof.Machine.execIsshu w W S s
  | .isshs w W S => Sys2Proof.Machine.execIsshs w W S s
  | .isintn w => Sys2Proof.Machine.execIsintn w s
  | .isuintn w => Sys2Proof.Machine.execIsuintn w s
  | .maxintn w => Sys2Proof.Machine.execMaxintn w s
  | .minintn w => Sys2Proof.Machine.execMinintn w s
  | .maxuintn w => Sys2Proof.Machine.execMaxuintn w s
  | .ctlog2 w => Sys2Proof.Machine.execCtlog2 w s
  | .clz w => Sys2Proof.Machine.execClz w s
  | .ctz w => Sys2Proof.Machine.execCtz w s
  | .shl w => Sys2Proof.Machine.execShl w s
  | .shr w => Sys2Proof.Machine.execShr w s
  | .minalign w => Sys2Proof.Machine.execMinalign w s
  | .alignto w => Sys2Proof.Machine.execAlignto w s
  | .alignp2 w => Sys2Proof.Machine.execAlignp2 w s
  | .aligndn w => Sys2Proof.Machine.execAligndn w s
  | .divnear w => Sys2Proof.Machine.execDivnear w s
  | .divceil w => Sys2Proof.Machine.execDivceil w s
  | .divceils w => Sys2Proof.Machine.execDivceils w s
  | .divfloors w => Sys2Proof.Machine.execDivfloors w s
  | .divsovf w => Sys2Proof.Machine.execDivsovf w s
  | .mod w => Sys2Proof.Machine.execMod w s
  | .satadd w k => Sys2Proof.Machine.execSatadd w k s
  | .satmul w => Sys2Proof.Machine.execSatmul w s
  | .satmad w => Sys2Proof.Machine.execSatmad w s
  | .addo w => Sys2Proof.Machine.execAddo w s
  | .subo w => Sys2Proof.Machine.execSubo w s
  | .mulo w => Sys2Proof.Machine.execMulo w s

end Sys2Proof.Machine
end

