-- ==== Sys2Proof/Machine/Step.lean ====
section
/-! DEFINITION. One step of the machine: one rising edge of clk (10_state.md rules R33 to R36, 70_reset_and_hazards.md rule
R400). -/

namespace Sys2Proof.Machine

/-- Accept the request on the ports: decode its command word and answer it (R35, R77). -/
def accept (s : State) : Host.Outcome State Fault Refusal :=
  match decode s.now.request.cmd with
  | .ok i => exec i s
  | .error _ => s.answerIllegal

/-- A rising edge: with rst = 1 the reset; otherwise the queue is served and, where REQ_VALID and REQ_READY are both 1,
the request is accepted. Both handshakes are judged on the state before the edge (log entry 7). -/
def step (s : State) : Host.Outcome State Fault Refusal :=
  if s.now.rst then .next s.resetEdge.nextCycle
  else if s.accepts then onNext State.nextCycle (accept s.serve)
  else .next s.serve.nextCycle

/-- `s` with the command word `w` on the request ports so that the next edge accepts it (log entry 9). -/
def State.withFetchWord (s : State) (nbits w : Nat) : State := s.presenting (BitVec.ofNat 32 (w % 2 ^ nbits))

end Sys2Proof.Machine
end

