-- ==== Sys2Proof/Machine/Respond.lean ====
section
/-! DEFINITION. The response of a request as a function of the request alone (10_state.md rule R35): what claims say the
FWAD computes, beside `exec`, which computes it on the machine. -/

namespace Sys2Proof.Machine

/-- The response a legal command gives to a request. -/
def responseOf (i : Instr) (q : Request) : Response :=
  match i with
  | .maskto w => respMaskto w q
  | .masklo w => respMasklo w q
  | .revb w => respRevb w q
  | .ispow2 w => respIspow2 w q
  | .p2ceil w => respP2ceil w q
  | .nextp2 w => respNextp2 w q
  | .isshmask w => respIsshmask w q
  | .isshu w W S => respIsshu w W S q
  | .isshs w W S => respIsshs w W S q
  | .isintn w => respIsintn w q
  | .isuintn w => respIsuintn w q
  | .maxintn w => respMaxintn w q
  | .minintn w => respMinintn w q
  | .maxuintn w => respMaxuintn w q
  | .ctlog2 w => respCtlog2 w q
  | .clz w => respClz w q
  | .ctz w => respCtz w q
  | .shl w => respShl w q
  | .shr w => respShr w q
  | .minalign w => respMinalign w q
  | .alignto w => respAlignto w q
  | .alignp2 w => respAlignp2 w q
  | .aligndn w => respAligndn w q
  | .divnear w => respDivnear w q
  | .divceil w => respDivceil w q
  | .divceils w => respDivceils w q
  | .divfloors w => respDivfloors w q
  | .divsovf w => respDivsovf w q
  | .mod w => respMod w q
  | .satadd w k => respSatadd w k q
  | .satmul w => respSatmul w q
  | .satmad w => respSatmad w q
  | .addo w => respAddo w q
  | .subo w => respSubo w q
  | .mulo w => respMulo w q

/-- `exec(CMD, A, B, C, D)` of R35: total, and a function of those five values alone. -/
def respond (q : Request) : Response :=
  match decode q.cmd with
  | .ok i => responseOf i q
  | .error _ => illegalResponse

end Sys2Proof.Machine
end

