-- ==== Sys2Proof/Safety.lean ====
section
/-! DEFINITION. The terms claims use: the invariant of the machine, a run without reset, what a run accepts and delivers,
and the words, operand values and results of 00_scope.md rules R10 to R15 said without the model's own operations. -/

namespace Sys2Proof.Machine

/-! ## The invariant -/

/-- What every reachable state satisfies: Q holds at most MAX_OUTSTANDING entries (10_state.md R34, R42), each entry holds
the response of its own request (R35, R46), and an older entry stands before a younger one (R36, R42). -/
structure State.Inv (s : State) : Prop where
  capacity : s.queue.length ≤ s.params.maxOutstanding
  answered : ∀ e ∈ s.queue, e.response = respond e.request
  ordered : s.queue.Pairwise fun e f => f.age < e.age

/-! ## Runs -/

/-- Every cycle that is driven, now, next and over and over, is such that `P`. -/
def State.Drives (P : Cycle → Prop) (s : State) : Prop :=
  P s.now ∧ (∀ c ∈ s.upcoming, P c) ∧ ∀ c ∈ s.recurring, P c

/-- No cycle of what is driven asserts rst. -/
def State.NoReset (s : State) : Prop := s.Drives fun c => c.rst = false

/-- No cycle of what is driven asserts RSP_READY. -/
def State.HostNotReady (s : State) : Prop := s.Drives fun c => c.rspReady = false

/-- REQ_VALID is 1 in every cycle, without end. -/
def State.HostAsks (s : State) : Prop := s.recurring ≠ [] ∧ s.Drives fun c => c.reqValid = true

/-- RSP_READY is 1 in every cycle, without end. -/
def State.HostTakes (s : State) : Prop := s.recurring ≠ [] ∧ s.Drives fun c => c.rspReady = true

/-- The requests the next edge accepts: one or none. -/
def State.accepted (s : State) : List Request := if s.accepts then [s.now.request] else []

/-- The responses the next edge delivers: what stands on the response ports, or none. -/
def State.delivered (s : State) : List Response := if s.consumes then [s.rspPorts] else []

/-- What `k` edges accept and deliver, each in order, and the state they lead to. -/
def history : Nat → State → Option (List Request × List Response × State)
  | 0, s => some ([], [], s)
  | k + 1, s =>
    match step s with
    | .next t => (history k t).map fun h => (s.accepted ++ h.1, s.delivered ++ h.2.1, h.2.2)
    | .fault _ => none
    | .refused _ => none

/-- `k` edges lead from `s` to `t`. -/
def Reaches (k : Nat) (s t : State) : Prop := Host.Core.run Sys2Proof.core k s = Host.Outcome.next t

/-! ## Words, operands and results -/

/-- The command word with the given fields, bit 31 first (30_encoding.md R70). -/
def fieldsWord (rsv : BitVec 8) (ps pw : BitVec 7) (arity wsel : BitVec 2) (opc : BitVec 6) : Command :=
  rsv ++ ps ++ pw ++ arity ++ wsel ++ opc

/-- WSEL of a width, as bits (R71). -/
def wselBits : Width → BitVec 2
  | .w8 => 0b00
  | .w16 => 0b01
  | .w32 => 0b10
  | .w64 => 0b11

/-- The word of a command without immediates: OPC and WSEL, every other field 0. -/
def plainWord (opc : BitVec 6) (w : Width) : Command := fieldsWord 0 0 0 0 (wselBits w) opc

/-- `u(P)`: the low w bits of a port, unsigned (R12). -/
abbrev unsignedValue (w : Width) (p : Word) : Nat := (p.setWidth w.bits).toNat

/-- `s(P)`: the low w bits of a port, two's-complement (R12). -/
abbrev signedValue (w : Width) (p : Word) : Int := (p.setWidth w.bits).toInt

/-- R carries the boolean answer to `p`: 1 or 0 (R15). -/
def Answers (r : Word) (p : Prop) : Prop := (p → r = 1) ∧ (¬p → r = 0)

/-- The number of 1 bits of R. -/
def onesOf (r : Word) : Nat := (List.range 64).countP fun i => r.getLsbD i

/-- `exec i` completes in every state, and all it does is append the request on the ports to Q, with age 0 (log entry 6) and a
response that stands to the request as `P` says. -/
def Completes (i : Instr) (P : Request → Response → Prop) : Prop :=
  ∀ s : State, ∃ r : Response,
    exec i s = .next { s with queue := s.queue ++ [{ request := s.now.request, age := 0, response := r }] } ∧
      P s.now.request r

/-- At every width, the word with opcode `opc` decodes to `op`, which completes with the response `P` says. -/
def Implements (opc : BitVec 6) (op : Width → Instr) (P : Width → Request → Response → Prop) : Prop :=
  ∀ w : Width, decode (plainWord opc w) = .ok (op w) ∧ Completes (op w) (P w)

/-- No flag of the response is set. -/
def NoFlags (r : Response) : Prop := r.ov = false ∧ r.inv = false ∧ r.ill = false

/-- OV is set exactly when `p`, and no other flag is. -/
def OnlyOV (r : Response) (p : Prop) : Prop := (r.ov = true ↔ p) ∧ r.inv = false ∧ r.ill = false

/-- INV is set exactly when `p`, and no other flag is. -/
def OnlyINV (r : Response) (p : Prop) : Prop := r.ov = false ∧ (r.inv = true ↔ p) ∧ r.ill = false

/-! ## Domain, overflow, operands read -/

/-- The complete list of R302: the operands outside the documented domain of a command. -/
def OutOfDomain (i : Instr) (q : Request) : Prop :=
  match i with
  | .maskto w | .masklo w | .isintn w | .isuintn w | .maxintn w | .minintn w | .maxuintn w => w.bits < q.a.toNat
  | .ctlog2 w => ¬ ∃ k, unsignedValue w q.a = 2 ^ k
  | .alignto w | .aligndn w => unsignedValue w q.b = 0
  | .alignp2 w => ¬ ∃ k, unsignedValue w q.b = 2 ^ k
  | .divnear w | .divceil w => unsignedValue w q.b = 0
  | .divceils w | .divfloors w => signedValue w q.b = 0
  | .mod w => signedValue w q.b ≤ 0
  | .revb _ | .ispow2 _ | .p2ceil _ | .nextp2 _ | .isshmask _ | .isshu _ _ _ | .isshs _ _ _ | .clz _ | .ctz _ | .shl _
  | .shr _ | .minalign _ | .divsovf _ | .satadd _ _ | .satmul _ | .satmad _ | .addo _ | .subo _ | .mulo _ => False

/-- What R carries where the operands are outside the domain (R302, with the rules it names); the logarithm of 0 reads 0. -/
def CarriesDefinedValue (i : Instr) (q : Request) (r : Word) : Prop :=
  match i with
  | .maskto w | .masklo w | .maxuintn w => r.toNat = 2 ^ w.bits - 1
  | .isintn _ | .isuintn _ => r = 1
  | .maxintn w => r.toInt = 2 ^ (w.bits - 1) - 1
  | .minintn w => r.toInt = -2 ^ (w.bits - 1)
  | .ctlog2 w => r.toNat = Nat.log2 (unsignedValue w q.a)
  | .alignto w | .alignp2 w | .aligndn w => r.toNat = unsignedValue w q.a
  | .divnear _ | .divceil _ | .divceils _ | .divfloors _ => r = 0
  | .mod w => if signedValue w q.b = 0 then r = 0 else r.toInt = signedValue w q.a % signedValue w q.b
  | .revb _ | .ispow2 _ | .p2ceil _ | .nextp2 _ | .isshmask _ | .isshu _ _ _ | .isshs _ _ _ | .clz _ | .ctz _ | .shl _
  | .shr _ | .minalign _ | .divsovf _ | .satadd _ _ | .satmul _ | .satmad _ | .addo _ | .subo _ | .mulo _ => False

/-- The exact signed result does not fit in the width. -/
def DoesNotFit (w : Width) (z : Int) : Prop := z < -2 ^ (w.bits - 1) ∨ 2 ^ (w.bits - 1) ≤ z

/-- No value that is at or above `v` and congruent to `sk` modulo `al` fits in the width. -/
def NoAlignedValueFits (w : Width) (v al sk : Nat) : Prop :=
  ∀ m : Nat, v ≤ m → (al : Int) ∣ (m : Int) - sk → 2 ^ w.bits ≤ m

/-- When the exact result of a command does not fit (R303, with the rules it names). -/
def ResultOverflows (i : Instr) (q : Request) : Prop :=
  match i with
  | .p2ceil w => 2 ^ (w.bits - 1) < unsignedValue w q.a
  | .nextp2 w => 2 ^ (w.bits - 1) ≤ unsignedValue w q.a
  | .alignto w =>
    unsignedValue w q.b ≠ 0 ∧ NoAlignedValueFits w (unsignedValue w q.a) (unsignedValue w q.b) (unsignedValue w q.c)
  | .alignp2 w =>
    (∃ k, unsignedValue w q.b = 2 ^ k) ∧ NoAlignedValueFits w (unsignedValue w q.a) (unsignedValue w q.b) 0
  | .divceils w | .divfloors w => signedValue w q.a = -2 ^ (w.bits - 1) ∧ signedValue w q.b = -1
  | .satadd w k => 2 ^ w.bits ≤ unsignedValue w q.a + unsignedValue w q.b +
      (if 3 ≤ k then unsignedValue w q.c else 0) + (if k = 4 then unsignedValue w q.d else 0)
  | .satmul w => 2 ^ w.bits ≤ unsignedValue w q.a * unsignedValue w q.b
  | .satmad w => 2 ^ w.bits ≤ unsignedValue w q.a * unsignedValue w q.b + unsignedValue w q.c
  | .addo w => DoesNotFit w (signedValue w q.a + signedValue w q.b)
  | .subo w => DoesNotFit w (signedValue w q.a - signedValue w q.b)
  | .mulo w => DoesNotFit w (signedValue w q.a * signedValue w q.b)
  | .maskto _ | .masklo _ | .revb _ | .ispow2 _ | .isshmask _ | .isshu _ _ _ | .isshs _ _ _ | .isintn _ | .isuintn _
  | .maxintn _ | .minintn _ | .maxuintn _ | .ctlog2 _ | .clz _ | .ctz _ | .shl _ | .shr _ | .minalign _ | .aligndn _
  | .divnear _ | .divceil _ | .divsovf _ | .mod _ => False

/-- What R carries where a command overflows (R303). -/
def CarriesOverflowValue (i : Instr) (q : Request) (r : Word) : Prop :=
  match i with
  | .p2ceil _ | .nextp2 _ | .alignto _ => r = 0
  | .alignp2 w => r.toNat = if w.bits < 64 then 2 ^ w.bits else 0
  | .satadd w _ | .satmul w | .satmad w => r.toNat = 2 ^ w.bits - 1
  | .divceils w | .divfloors w => r.toInt = -2 ^ (w.bits - 1)
  | .addo w => r.toInt = (signedValue w q.a + signedValue w q.b).bmod (2 ^ w.bits)
  | .subo w => r.toInt = (signedValue w q.a - signedValue w q.b).bmod (2 ^ w.bits)
  | .mulo w => r.toInt = (signedValue w q.a * signedValue w q.b).bmod (2 ^ w.bits)
  | .maskto _ | .masklo _ | .revb _ | .ispow2 _ | .isshmask _ | .isshu _ _ _ | .isshs _ _ _ | .isintn _ | .isuintn _
  | .maxintn _ | .minintn _ | .maxuintn _ | .ctlog2 _ | .clz _ | .ctz _ | .shl _ | .shr _ | .minalign _ | .aligndn _
  | .divnear _ | .divceil _ | .divsovf _ | .mod _ => False

/-- Two requests agree on what a command reads, by the table of R76: a port read as `n` as a whole, one read as `u` or `s` in
its low w bits. -/
def AgreeOnWhatIsRead (i : Instr) (q q' : Request) : Prop :=
  let low (w : Width) (p p' : Word) : Prop := p.setWidth w.bits = p'.setWidth w.bits
  match i with
  | .maskto _ | .masklo _ | .maxintn _ | .minintn _ | .maxuintn _ => q.a = q'.a
  | .revb w | .ispow2 w | .p2ceil w | .nextp2 w | .isshmask w | .ctlog2 w | .clz w | .ctz w | .isshu w _ _
  | .isshs w _ _ => low w q.a q'.a
  | .isintn w | .isuintn w => q.a = q'.a ∧ low w q.b q'.b
  | .shl w | .shr w => low w q.a q'.a ∧ q.b = q'.b
  | .minalign w | .alignp2 w | .aligndn w | .divnear w | .divceil w | .divceils w | .divfloors w | .divsovf w | .mod w
  | .satmul w | .addo w | .subo w | .mulo w => low w q.a q'.a ∧ low w q.b q'.b
  | .alignto w | .satmad w => low w q.a q'.a ∧ low w q.b q'.b ∧ low w q.c q'.c
  | .satadd w k => low w q.a q'.a ∧ low w q.b q'.b ∧ (3 ≤ k → low w q.c q'.c) ∧ (k = 4 → low w q.d q'.d)

/-- What a saturating operation answers to the exact result `z`. -/
def Saturates (w : Width) (r : Response) (z : Nat) : Prop :=
  r.r.toNat = min z (2 ^ w.bits - 1) ∧ OnlyOV r (2 ^ w.bits ≤ z)

/-- What a checked operation answers to the exact result `z`: its wraparound, sign-extended, and OV where it does not fit. -/
def WrapsAround (w : Width) (r : Response) (z : Int) : Prop :=
  r.r.toInt = z.bmod (2 ^ w.bits) ∧ ((unsignedValue w r.r : Int) = z % 2 ^ w.bits) ∧ OnlyOV r (DoesNotFit w z)

end Sys2Proof.Machine
end

