-- ==== Sys2Proof/Certificates/Slice0/Obligations.lean ====
section
/-! DEFINITION. The statements about the FWAD, from the numbered rules of spec/. The terms they share (Implements, Completes,
Answers, OnlyOV, OnlyINV, NoFlags, OutOfDomain, ResultOverflows, history, Reaches) stand in Sys2Proof/Safety.lean; every operation's statement says where
the command completes, its result, its flags, and, through Completes, that nothing else of the state changes. -/

open Sys2Proof Sys2Proof.Machine

/-! ## Encoding (30_encoding.md) -/

/-- R70 to R75: decoding the word of a well-formed command gives the command back, with every operand. -/
def Obligations.DecodeOfEncodeIsTheCommand : Prop :=
  ∀ i : Instr, i.WellFormed → decode (encode i) = .ok i

/-- R77, R78: a legal word has one meaning and no bit of it is dropped: its command is well-formed and encodes to it. -/
def Obligations.EncodeOfDecodeIsTheWord : Prop :=
  ∀ (cmd : Command) (i : Instr), decode cmd = .ok i → i.WellFormed ∧ encode i = cmd

/-- R301: exactly the words of its five kinds are illegal; an accepted illegal word is answered with R = 0 and ILL alone,
whatever stands on the operand ports, and an accepted legal one without ILL. The age 0 of the entry appended is log entry 6 and
the queue served at the same edge log entry 7 (both DEDUCED). -/
def Obligations.IllegalWordsAndTheirResponse : Prop :=
  (∀ cmd : Command, (∃ e, decode cmd = .error e) ↔
    cmd.extractLsb 31 24 ≠ 0 ∨
    cmd.extractLsb 5 0 ∈ ([0x00, 0x14, 0x15, 0x16, 0x17, 0x1C, 0x1D, 0x1E, 0x1F, 0x26, 0x27] : List (BitVec 6)) ∨
    0x2E ≤ (cmd.extractLsb 5 0).toNat ∨
    (cmd.extractLsb 5 0 ≠ (0x28 : BitVec 6) ∧ cmd.extractLsb 9 8 ≠ 0) ∨
    (cmd.extractLsb 5 0 = (0x28 : BitVec 6) ∧ cmd.extractLsb 9 8 = 3) ∨
    (cmd.extractLsb 5 0 ≠ (0x08 : BitVec 6) ∧ cmd.extractLsb 5 0 ≠ (0x09 : BitVec 6) ∧
      (cmd.extractLsb 16 10 ≠ 0 ∨ cmd.extractLsb 23 17 ≠ 0))) ∧
  (∀ (s : State) (e : Illegal), s.accepts = true → decode s.now.request.cmd = .error e →
    ∃ t, step s = .next t ∧
      t.queue = s.serve.queue ++
        [{ request := s.now.request, age := 0, response := { r := 0, ov := false, inv := false, ill := true } }]) ∧
  ∀ (s : State) (i : Instr), s.accepts = true → decode s.now.request.cmd = .ok i →
    ∃ t r, step s = .next t ∧ t.queue = s.serve.queue ++ [{ request := s.now.request, age := 0, response := r }] ∧
      r.ill = false

/-- Words written from the field table and the opcode map: the three examples of R80, five more legal words and five illegal
ones. -/
def Obligations.WordsOfTheSpecDecode : Prop :=
  decode 0x0000002B = .ok (.addo .w8) ∧ decode 0x00041088 = .ok (.isshu .w32 4 2) ∧
  decode 0x00000168 = .ok (.satadd .w16 3) ∧ decode 0x00000081 = .ok (.maskto .w32) ∧
  decode 0x000000D1 = .ok (.ctz .w64) ∧ decode 0x0000009A = .ok (.alignp2 .w32) ∧
  decode 0x000000A5 = .ok (.mod .w32) ∧ decode 0x00FFFC09 = .ok (.isshs .w8 127 127) ∧
  decode 0x00000000 = .error .reservedOpcode ∧ decode 0x01000029 = .error .reservedBitSet ∧
  decode 0x0000012B = .error .arityNotZero ∧ decode 0x00000328 = .error .arityThree ∧
  decode 0x00000429 = .error .parameterNotZero

/-! ## Requests and responses (10_state.md, 70_reset_and_hazards.md) -/

/-- A step runs the decoded command: at an edge that accepts a word which decodes to `i`, the step is `exec i` at the state
whose queue has been served, and then the next cycle. So it is, too, of a word placed by `withFetchWord` (log entry 9). That
the queue is served at the same edge is log entry 7 (DEDUCED), READY_POLICY as stalls log entry 2 (DESIGN CHOICE), the
move to the next cycle log entry 3 (DESIGN CHOICE). -/
def Obligations.StepRunsTheDecodedCommand : Prop :=
  (∀ (s : State) (i : Instr), s.now.rst = false → s.now.reqValid = true → s.stall = 0 →
    s.queue.length < s.params.maxOutstanding → decode s.now.request.cmd = .ok i →
    step s = onNext State.nextCycle (exec i s.serve)) ∧
  ∀ (s : State) (nbits word : Nat) (i : Instr), decodeTableWord nbits word = some i →
    step (s.withFetchWord nbits word) = onNext State.nextCycle (exec i (s.withFetchWord nbits word).serve)

/-- R34: when REQ_READY is 1, what an accepting edge appends to Q, and that a request which is not accepted has no effect.
READY_POLICY as stalls is log entry 2 (DESIGN CHOICE), the age 0 log entry 6 and the queue served at the same edge log
entry 7 (both DEDUCED). -/
def Obligations.AcceptanceOfARequest : Prop :=
  ∀ s : State, s.now.rst = false →
    (s.queue.length = s.params.maxOutstanding → s.reqReady = false) ∧
    (s.queue.length < s.params.maxOutstanding → s.reqReady = decide (s.stall = 0)) ∧
    ∃ t, step s = .next t ∧ t.params = s.params ∧
      (s.now.reqValid = true ∧ s.reqReady = true →
        ∃ r, t.queue = s.serve.queue ++ [{ request := s.now.request, age := 0, response := r }]) ∧
      (¬ (s.now.reqValid = true ∧ s.reqReady = true) → t.queue = s.serve.queue ∧
        ∀ q : Request, step { s with now := { s.now with request := q } } = .next t)

/-- R35: the response is a total function of the command word and the four operands alone: of every accepted request, legal
or not, and of every command that exec runs. The age 0 of the entry appended is log entry 6 and the queue served at the same
edge log entry 7 (both DEDUCED). -/
def Obligations.ResponseIsAFunctionOfTheRequest : Prop :=
  ∃ f : Request → Response,
    (∀ (q : Request) (e : Illegal), decode q.cmd = .error e →
      f q = { r := 0, ov := false, inv := false, ill := true }) ∧
    (∀ i : Instr, Completes i fun q r => decode q.cmd = .ok i → r = f q) ∧
    ∀ s : State, s.accepts = true → ∃ t, step s = .next t ∧
      t.queue = s.serve.queue ++ [{ request := s.now.request, age := 0, response := f s.now.request }]

/-- R46: two equal requests, accepted in any two states whatever, whatever their queues, parameters and inputs, put equal
responses into their queues. -/
def Obligations.HistoryIndependence : Prop :=
  ∀ s s' t t' : State, s.accepts = true → s'.accepts = true → s.now.request = s'.now.request →
    step s = .next t → step s' = .next t' →
    ∃ e e', t.queue.getLast? = some e ∧ t'.queue.getLast? = some e' ∧ e.request = s.now.request ∧
      e'.request = s.now.request ∧ e.response = e'.response

/-- R36, R56: over any number of edges without reset, the responses delivered are the ones that were in Q and then those of
the requests accepted, in the order of acceptance, one for each, none duplicated or dropped. -/
def Obligations.ResponsesInAcceptanceOrder : Prop :=
  ∀ (k : Nat) (s : State), s.NoReset → ∃ requests responses t, history k s = some (requests, responses, t) ∧
    s.queue.map Entry.response ++ requests.map respond = responses ++ t.queue.map Entry.response

/-- R36, R408: a request accepted into an empty queue has its response on the ports after exactly LATENCY edges more, not
before, whatever the command, the width and the operands. That the accepting edge is not one of them is log entry 6
(DEDUCED). -/
def Obligations.ResponseValidAfterLatency : Prop :=
  ∀ s : State, s.NoReset → s.queue = [] → s.accepts = true → ∀ j ≤ s.params.latency,
    ∃ t, Reaches (j + 1) s t ∧ (t.rspValid = true ↔ j = s.params.latency) ∧
      (j = s.params.latency → t.rspPorts = respond s.now.request)

/-- R36: while the host is ready and does not reset, the oldest entry is delivered, alone, in as many edges as its age falls
short of LATENCY and one more (log entries 6 and 7, DEDUCED). -/
def Obligations.OldestEntryIsDelivered : Prop :=
  ∀ (s : State) (e : Entry) (q : List Entry), s.queue = e :: q → s.NoReset → s.now.rspReady = true →
    (∀ c ∈ s.upcoming, c.rspReady = true) → s.params.latency - e.age ≤ s.upcoming.length →
    ∃ requests t, history (s.params.latency - e.age + 1) s = some (requests, [e.response], t)

/-- R43, R404: a valid response that the host does not take stays valid and unchanged, without limit. -/
def Obligations.ResponseWaitsUnchanged : Prop :=
  ∀ (k : Nat) (s : State), s.NoReset → s.HostNotReady → s.rspValid = true →
    ∃ t, Reaches k s t ∧ t.rspValid = true ∧ t.rspPorts = s.rspPorts

/-- R404: a stall of READY_POLICY ends. Where Q has room, the edges the current stall lasts lead to a cycle in which Q has room
and REQ_READY is 1 (but in a reset cycle, R45); so a host that asks without end is accepted there, and one that asks and takes
responses without end is accepted again and again, whatever Q holds, though stalls may recur without end. READY_POLICY as stalls,
each of them finite, is the model's form of the fairness (log entry 2, DESIGN CHOICE), what is driven without end log entry 3
(DESIGN CHOICE). -/
def Obligations.ReadinessReturns : Prop :=
  (∀ s : State, s.queue.length < s.params.maxOutstanding → ∃ t, Reaches s.stall s t ∧
    t.queue.length < t.params.maxOutstanding ∧ (t.now.rst = false → t.reqReady = true)) ∧
  (∀ s : State, s.NoReset → s.HostAsks → s.queue.length < s.params.maxOutstanding →
    ∃ t, Reaches s.stall s t ∧ t.accepts = true) ∧
  ∀ s : State, s.NoReset → s.HostAsks → s.HostTakes → ∀ m, ∃ k t, m ≤ k ∧ Reaches k s t ∧ t.accepts = true

/-- R400, R45: an edge with rst = 1 empties Q, leaves no valid response and accepts nothing, whatever REQ_VALID is. -/
def Obligations.ResetEdgeEmptiesTheQueue : Prop :=
  ∀ s : State, s.now.rst = true → s.accepts = false ∧
    ∃ t, step s = .next t ∧ t.queue = [] ∧ t.rspValid = false ∧ t.params = s.params

/-- R401: after a reset edge only requests accepted since are answered: what is delivered is a first part of their responses,
in order, whatever was in flight before. -/
def Obligations.ResetDiscardsWhatIsInFlight : Prop :=
  ∀ (k : Nat) (s u : State), s.now.rst = true → (∀ c ∈ s.upcoming, c.rst = false) →
    (∀ c ∈ s.recurring, c.rst = false) → step s = .next u →
    ∃ requests responses t, history k u = some (requests, responses, t) ∧ responses <+: requests.map respond

/-- R45, R402: in the reset state Q is empty and RSP_VALID is 0, and the invariant holds. -/
def Obligations.ResetStateMeetsTheInvariant : Prop :=
  State.reset.queue = [] ∧ State.reset.rspValid = false ∧ State.reset.Inv

/-- R34, R35, R42: from every state that meets the invariant, a step leads to one that meets it: Q holds no more than
MAX_OUTSTANDING entries, each with the response of its own request, the older before the younger. -/
def Obligations.EveryStepKeepsTheInvariant : Prop :=
  ∀ s t : State, s.Inv → step s = .next t → t.Inv

/-- R300: no step stops the machine, in no state and at no command word; and no command, legal or not, changes an entry that
is already in Q: those that stay differ in their age alone. That one edge may both take a response and accept a request is
log entry 7 (DEDUCED). -/
def Obligations.NoCommandStopsOrDisturbs : Prop :=
  ∀ s : State, ∃ t, step s = .next t ∧
    (s.now.rst = false → ∃ new, t.queue = (s.queue.drop (if s.consumes then 1 else 0)).map
      (fun e => { e with age := e.age + 1 }) ++ new)

/-- R406: in a cycle whose edge accepts nothing, what stands on CMD, A, B, C and D has no effect; at an accepting edge the
values present are the ones taken. That the stalls to come do not look at the ports either is log entry 2 (DESIGN CHOICE). -/
def Obligations.PortsAreSampledOnlyAtAcceptance : Prop :=
  (∀ (s : State) (q : Request), s.accepts = false → step { s with now := { s.now with request := q } } = step s) ∧
  ∀ s t : State, s.accepts = true → step s = .next t → ∃ e, t.queue.getLast? = some e ∧ e.request = s.now.request

/-! ## Flags (60_exceptions.md) -/

/-- R302: every command completes, and INV is set exactly for the operands of the complete list; R then carries the value the
operation's rule defines. -/
def Obligations.InvExactlyOutOfDomain : Prop :=
  ∀ i : Instr, Completes i fun q r => (r.inv = true ↔ OutOfDomain i q) ∧ (r.inv = true → CarriesDefinedValue i q r.r)

/-- R303: every command completes, and OV is set exactly where the exact result does not fit; R then carries the operation's
overflow value. -/
def Obligations.OvExactlyOnOverflow : Prop :=
  ∀ i : Instr, Completes i fun q r => (r.ov = true ↔ ResultOverflows i q) ∧ (r.ov = true → CarriesOverflowValue i q r.r)

/-- R304: no response has two flags set, and of a legal command none has ILL. -/
def Obligations.AtMostOneFlag : Prop :=
  (∀ i : Instr, Completes i fun _ r => r.ill = false ∧ ¬ (r.ov = true ∧ r.inv = true)) ∧
  ∀ s t : State, s.accepts = true → step s = .next t → ∃ e, t.queue.getLast? = some e ∧
    ¬ (e.response.ill = true ∧ e.response.inv = true) ∧ ¬ (e.response.ill = true ∧ e.response.ov = true) ∧
    ¬ (e.response.inv = true ∧ e.response.ov = true)

/-! ## Operands (00_scope.md R12, R17; 30_encoding.md R76) -/

/-- R12, R17, R76: the response of a command depends on the ports it names alone, and of a value operand on its low w bits. -/
def Obligations.OnlyTheNamedOperandsMatter : Prop :=
  ∀ (i : Instr) (s s' : State), AgreeOnWhatIsRead i s.now.request s'.now.request →
    ∃ r : Response,
      exec i s = .next { s with queue := s.queue ++ [{ request := s.now.request, age := 0, response := r }] } ∧
      exec i s' = .next { s' with queue := s'.queue ++ [{ request := s'.now.request, age := 0, response := r }] }

/-! ## Bit and mask operations (40_bitmask.md) -/

/-- R100. -/
def Obligations.MasktoGivesTrailingOnes : Prop :=
  Implements 0x01 .maskto fun w q r =>
    r.r.toNat = 2 ^ min q.a.toNat w.bits - 1 ∧ (∀ i, r.r.getLsbD i = decide (i < min q.a.toNat w.bits)) ∧
    OnlyINV r (w.bits < q.a.toNat)

/-- R101. -/
def Obligations.MaskloGivesLeadingOnes : Prop :=
  Implements 0x02 .masklo fun w q r =>
    r.r.toNat = (2 ^ min q.a.toNat w.bits - 1) * 2 ^ (w.bits - min q.a.toNat w.bits) ∧
    (∀ i, r.r.getLsbD i = decide (w.bits - min q.a.toNat w.bits ≤ i ∧ i < w.bits)) ∧
    OnlyINV r (w.bits < q.a.toNat)

/-- R102, with its derived corollary that REVB twice is the identity on the low w bits. -/
def Obligations.RevbReversesTheBits : Prop :=
  (Implements 0x03 .revb fun w q r =>
    (∀ i, r.r.getLsbD i = (decide (i < w.bits) && q.a.getLsbD (w.bits - 1 - i))) ∧ NoFlags r) ∧
  ∀ (w : Width) (q q' : Request), q'.a = (responseOf (.revb w) q).r →
    (responseOf (.revb w) q').r = (q.a.setWidth w.bits).setWidth 64

/-- R103. -/
def Obligations.Ispow2TestsForAPowerOfTwo : Prop :=
  Implements 0x04 .ispow2 fun w q r =>
    Answers r.r (∃ k, unsignedValue w q.a = 2 ^ k) ∧
    Answers r.r ((List.range w.bits).countP (fun i => q.a.getLsbD i) = 1) ∧ NoFlags r

/-- R104: 0 for 0, else the least power of two at or above x, or 0 with OV where that does not fit. -/
def Obligations.P2ceilIsTheLeastPowerAtOrAbove : Prop :=
  Implements 0x05 .p2ceil fun w q r =>
    (unsignedValue w q.a = 0 → r.r = 0) ∧
    (unsignedValue w q.a ≠ 0 → unsignedValue w q.a ≤ 2 ^ (w.bits - 1) →
      (∃ k, r.r.toNat = 2 ^ k) ∧ unsignedValue w q.a ≤ r.r.toNat ∧
      ∀ k, unsignedValue w q.a ≤ 2 ^ k → r.r.toNat ≤ 2 ^ k) ∧
    (2 ^ (w.bits - 1) < unsignedValue w q.a → r.r = 0) ∧ OnlyOV r (2 ^ (w.bits - 1) < unsignedValue w q.a)

/-- R105: the least power of two above x, or 0 with OV where that does not fit. -/
def Obligations.Nextp2IsTheLeastPowerAbove : Prop :=
  Implements 0x06 .nextp2 fun w q r =>
    (unsignedValue w q.a < 2 ^ (w.bits - 1) →
      (∃ k, r.r.toNat = 2 ^ k) ∧ unsignedValue w q.a < r.r.toNat ∧
      ∀ k, unsignedValue w q.a < 2 ^ k → r.r.toNat ≤ 2 ^ k) ∧
    (2 ^ (w.bits - 1) ≤ unsignedValue w q.a → r.r = 0) ∧ OnlyOV r (2 ^ (w.bits - 1) ≤ unsignedValue w q.a)

/-- R106: where x is a run of `L` ones at bit `t`, R carries 1, `t` in bits 14:8 and `L` in bits 22:16; otherwise it is 0. -/
def Obligations.IsshmaskFindsTheRun : Prop :=
  Implements 0x07 .isshmask fun w q r =>
    (∀ t L, 1 ≤ L → unsignedValue w q.a = (2 ^ L - 1) * 2 ^ t → r.r.toNat = 1 + t * 2 ^ 8 + L * 2 ^ 16) ∧
    ((¬ ∃ t L, 1 ≤ L ∧ unsignedValue w q.a = (2 ^ L - 1) * 2 ^ t) → r.r = 0) ∧ NoFlags r

/-- R107, for every width and every W and S of the command word. -/
def Obligations.IsshuTestsTheUnsignedWindow : Prop :=
  ∀ (w : Width) (W S : BitVec 7),
    decode (fieldsWord 0 S W 0 (wselBits w) 0x08) = .ok (.isshu w W.toNat S.toNat) ∧
    Completes (.isshu w W.toNat S.toNat) fun q r =>
      Answers r.r (∃ v, v < 2 ^ W.toNat ∧ v * 2 ^ S.toNat = unsignedValue w q.a) ∧ NoFlags r

/-- R108, for every width and every W and S of the command word. -/
def Obligations.IsshsTestsTheSignedWindow : Prop :=
  ∀ (w : Width) (W S : BitVec 7),
    decode (fieldsWord 0 S W 0 (wselBits w) 0x09) = .ok (.isshs w W.toNat S.toNat) ∧
    Completes (.isshs w W.toNat S.toNat) fun q r =>
      (W = 0 → Answers r.r (signedValue w q.a = 0)) ∧
      (W ≠ 0 → Answers r.r (∃ v : Int, -2 ^ (W.toNat - 1) ≤ v ∧ v ≤ 2 ^ (W.toNat - 1) - 1 ∧
        v * 2 ^ S.toNat = signedValue w q.a)) ∧ NoFlags r

/-- R109, R110: the range tests give the mathematical answer for every 64-bit count, with INV above the width. -/
def Obligations.RangeTestsGiveTheMathematicalAnswer : Prop :=
  (Implements 0x0A .isintn fun w q r =>
    (q.a.toNat = 0 → Answers r.r (signedValue w q.b = 0)) ∧
    (q.a.toNat ≠ 0 → Answers r.r
      (-2 ^ (q.a.toNat - 1) ≤ signedValue w q.b ∧ signedValue w q.b ≤ 2 ^ (q.a.toNat - 1) - 1)) ∧
    OnlyINV r (w.bits < q.a.toNat)) ∧
  Implements 0x0B .isuintn fun w q r =>
    Answers r.r (unsignedValue w q.b < 2 ^ q.a.toNat) ∧ OnlyINV r (w.bits < q.a.toNat)

/-- R111, R112: the signed extremes of min(n, w) bits, sign-extended, 0 for no bits. -/
def Obligations.SignedExtremesOfNBits : Prop :=
  (Implements 0x0C .maxintn fun w q r =>
    r.r.toInt = (if q.a.toNat = 0 then 0 else 2 ^ (min q.a.toNat w.bits - 1) - 1) ∧ OnlyINV r (w.bits < q.a.toNat)) ∧
  Implements 0x0D .minintn fun w q r =>
    r.r.toInt = (if q.a.toNat = 0 then 0 else -2 ^ (min q.a.toNat w.bits - 1)) ∧ OnlyINV r (w.bits < q.a.toNat)

/-- R113, with its corollary that MAXUINTN and MASKTO compute the same R and INV. -/
def Obligations.MaxuintnIsTheUnsignedMaximum : Prop :=
  (Implements 0x0E .maxuintn fun w q r =>
    (∀ v : Nat, v ≤ r.r.toNat ↔ v < 2 ^ min q.a.toNat w.bits) ∧ OnlyINV r (w.bits < q.a.toNat)) ∧
  ∀ (w : Width) (q : Request), (responseOf (.maxuintn w) q).r = (responseOf (.maskto w) q).r ∧
    (responseOf (.maxuintn w) q).inv = (responseOf (.maskto w) q).inv

/-- R114: the exponent of a power of two; for other values the index of the highest 1 bit, or 0 for 0, with INV. -/
def Obligations.Ctlog2IsTheLogarithm : Prop :=
  Implements 0x0F .ctlog2 fun w q r =>
    (unsignedValue w q.a = 0 → r.r = 0) ∧
    (unsignedValue w q.a ≠ 0 → 2 ^ r.r.toNat ≤ unsignedValue w q.a ∧ unsignedValue w q.a < 2 ^ (r.r.toNat + 1)) ∧
    OnlyINV r (¬ ∃ k, unsignedValue w q.a = 2 ^ k)

/-- R121. -/
def Obligations.MaskRoundTrip : Prop :=
  ∀ (w : Width) (q : Request), q.a.toNat ≤ w.bits →
    let tr := responseOf (.maskto w) q
    let ld := responseOf (.masklo w) q
    onesOf tr.r = q.a.toNat ∧ (∀ i, tr.r.getLsbD i = true → i < q.a.toNat) ∧
    onesOf ld.r = q.a.toNat ∧ (∀ i, ld.r.getLsbD i = true → w.bits - q.a.toNat ≤ i ∧ i < w.bits) ∧
    (q.a.toNat = 0 → tr.r = 0 ∧ ld.r = 0) ∧
    (q.a.toNat = w.bits → tr.r.toNat = 2 ^ w.bits - 1 ∧ ld.r.toNat = 2 ^ w.bits - 1) ∧
    tr.inv = false ∧ ld.inv = false

/-- R122: a ceiling that did not overflow is a power of two, and the ceiling is idempotent, after an overflow too. -/
def Obligations.PowerOfTwoProperties : Prop :=
  ∀ (w : Width) (q q' : Request), q'.a = (responseOf (.p2ceil w) q).r →
    (unsignedValue w q.a ≠ 0 → (responseOf (.p2ceil w) q).ov = false → (responseOf (.ispow2 w) q').r = 1) ∧
    (responseOf (.p2ceil w) q').r = (responseOf (.p2ceil w) q).r

/-! ## Zero detectors and barrel shifter (41_count_shift.md) -/

/-- R140, with its corollary that `w − 1 − CLZ(x)` is CTLOG2's result. -/
def Obligations.ClzCountsLeadingZeros : Prop :=
  (Implements 0x10 .clz fun w q r =>
    r.r.toNat ≤ w.bits ∧ (unsignedValue w q.a = 0 → r.r.toNat = w.bits) ∧
    (unsignedValue w q.a ≠ 0 → r.r.toNat < w.bits ∧ 2 ^ (w.bits - 1 - r.r.toNat) ≤ unsignedValue w q.a ∧
      unsignedValue w q.a < 2 ^ (w.bits - r.r.toNat)) ∧ NoFlags r) ∧
  ∀ (w : Width) (q : Request), unsignedValue w q.a ≠ 0 →
    (responseOf (.ctlog2 w) q).r.toNat = w.bits - 1 - (responseOf (.clz w) q).r.toNat

/-- R141, with its corollary that the start ISSHMASK reports is CTZ's result. -/
def Obligations.CtzCountsTrailingZeros : Prop :=
  (Implements 0x11 .ctz fun w q r =>
    (unsignedValue w q.a = 0 → r.r.toNat = w.bits) ∧
    (unsignedValue w q.a ≠ 0 → ∀ j, 2 ^ j ∣ unsignedValue w q.a ↔ j ≤ r.r.toNat) ∧ NoFlags r) ∧
  ∀ (w : Width) (q : Request), (responseOf (.isshmask w) q).r.getLsbD 0 = true →
    ((responseOf (.isshmask w) q).r.extractLsb 14 8).toNat = (responseOf (.ctz w) q).r.toNat

/-- R142, R143: the shifts move bits within the width, fill with zeros, and give 0 for every amount of w or more. -/
def Obligations.ShiftsWithinTheWidth : Prop :=
  (Implements 0x12 .shl fun w q r =>
    (w.bits ≤ q.b.toNat → r.r = 0) ∧
    (q.b.toNat < w.bits → ∀ i, r.r.getLsbD i =
      (decide (q.b.toNat ≤ i ∧ i < w.bits) && q.a.getLsbD (i - q.b.toNat))) ∧ NoFlags r) ∧
  Implements 0x13 .shr fun w q r =>
    (w.bits ≤ q.b.toNat → r.r = 0) ∧
    (q.b.toNat < w.bits → ∀ i, r.r.getLsbD i =
      (decide (i + q.b.toNat < w.bits) && q.a.getLsbD (i + q.b.toNat))) ∧ NoFlags r

/-- R144: a mask of n ones is the all-ones value shifted by `w − n`, also for n = 0. -/
def Obligations.MasksAreShiftsOfAllOnes : Prop :=
  ∀ (w : Width) (q ones : Request), q.a.toNat ≤ w.bits → unsignedValue w ones.a = 2 ^ w.bits - 1 →
    ones.b.toNat = w.bits - q.a.toNat →
    (responseOf (.maskto w) q).r = (responseOf (.shr w) ones).r ∧
    (responseOf (.masklo w) q).r = (responseOf (.shl w) ones).r

/-! ## Alignment (42_alignment.md) -/

/-- R160: the largest power of two that divides both operands, 0 for (0, 0), the same for (b, a). -/
def Obligations.MinalignIsTheGreatestCommonPower : Prop :=
  (Implements 0x18 .minalign fun w q r =>
    (unsignedValue w q.a = 0 → unsignedValue w q.b = 0 → r.r = 0) ∧
    (¬ (unsignedValue w q.a = 0 ∧ unsignedValue w q.b = 0) → (∃ k, r.r.toNat = 2 ^ k) ∧
      ∀ j, 2 ^ j ∣ unsignedValue w q.a ∧ 2 ^ j ∣ unsignedValue w q.b ↔ 2 ^ j ≤ r.r.toNat) ∧ NoFlags r) ∧
  ∀ (w : Width) (q : Request), responseOf (.minalign w) { q with a := q.b, b := q.a } = responseOf (.minalign w) q

/-- R161: the least value at or above `value` congruent to `skew` modulo `align` where it fits, the sentinel 0 with OV where it
does not, and the no-op with INV for align 0. -/
def Obligations.AligntoIsTheLeastCongruentValue : Prop :=
  Implements 0x19 .alignto fun w q r =>
    let v := unsignedValue w q.a
    let al := unsignedValue w q.b
    let sk := unsignedValue w q.c
    (al = 0 → r.r.toNat = v ∧ OnlyINV r True) ∧
    (al ≠ 0 → ∃ m : Nat, v ≤ m ∧ (al : Int) ∣ (m : Int) - sk ∧
      (∀ m' : Nat, v ≤ m' → (al : Int) ∣ (m' : Int) - sk → m ≤ m') ∧
      r.r.toNat = (if m < 2 ^ w.bits then m else 0) ∧ OnlyOV r (2 ^ w.bits ≤ m))

/-- R162: the least multiple of a power-of-two align, promoted to w + 1 bits where R has room, and the no-op with INV for any
other align. -/
def Obligations.Alignp2RoundsUpAndKeepsTheCarry : Prop :=
  Implements 0x1A .alignp2 fun w q r =>
    let v := unsignedValue w q.a
    let al := unsignedValue w q.b
    ((¬ ∃ k, al = 2 ^ k) → r.r.toNat = v ∧ OnlyINV r True) ∧
    ((∃ k, al = 2 ^ k) → ∃ m : Nat, v ≤ m ∧ al ∣ m ∧ (∀ m' : Nat, v ≤ m' → al ∣ m' → m ≤ m') ∧ m ≤ 2 ^ w.bits ∧
      r.r.toNat = (if m = 2 ^ 64 then 0 else m) ∧ OnlyOV r (m = 2 ^ w.bits))

/-- R163: the largest multiple of align at or below value, and the no-op with INV for align 0. -/
def Obligations.AligndnIsTheGreatestMultiple : Prop :=
  Implements 0x1B .aligndn fun w q r =>
    let v := unsignedValue w q.a
    let al := unsignedValue w q.b
    (al = 0 → r.r.toNat = v) ∧
    (al ≠ 0 → al ∣ r.r.toNat ∧ r.r.toNat ≤ v ∧ ∀ m, m ≤ v → al ∣ m → m ≤ r.r.toNat) ∧ OnlyINV r (al = 0)

/-- R164: rounding up again changes nothing and does not overflow, and rounding down stays within one align of the value. -/
def Obligations.AlignmentIdempotence : Prop :=
  ∀ (w : Width) (q q' : Request), unsignedValue w q.b ≠ 0 → unsignedValue w q.c = 0 →
    q'.a = (responseOf (.alignto w) q).r → q'.b = q.b → q'.c = q.c →
    (responseOf (.alignto w) q').r = (responseOf (.alignto w) q).r ∧ (responseOf (.alignto w) q').ov = false ∧
    (responseOf (.aligndn w) q).r.toNat ≤ unsignedValue w q.a ∧
    unsignedValue w q.a < (responseOf (.aligndn w) q).r.toNat + unsignedValue w q.b

/-- R165: ALIGNTO with skew 0 and ALIGNP2 give the same response for a power-of-two align where the rounded value fits; where
it does not, ALIGNTO gives the sentinel and ALIGNP2 promotes; for another non-zero align only ALIGNP2 sets INV. -/
def Obligations.AligntoAndAlignp2Agree : Prop :=
  ∀ (w : Width) (q : Request), unsignedValue w q.c = 0 →
    let tr := responseOf (.alignto w) q
    let p2 := responseOf (.alignp2 w) q
    ((∃ k, unsignedValue w q.b = 2 ^ k) →
      (¬ NoAlignedValueFits w (unsignedValue w q.a) (unsignedValue w q.b) 0 →
        tr.r = p2.r ∧ NoFlags tr ∧ NoFlags p2) ∧
      (NoAlignedValueFits w (unsignedValue w q.a) (unsignedValue w q.b) 0 →
        tr.r = 0 ∧ tr.ov = true ∧ p2.ov = true ∧ (w.bits < 64 → p2.r.toNat = 2 ^ w.bits))) ∧
    (unsignedValue w q.b ≠ 0 → (¬ ∃ k, unsignedValue w q.b = 2 ^ k) → tr.inv = false ∧ p2.inv = true)

/-! ## Division and modulo (43_division.md) -/

/-- R180: the nearest integer to a/b, ties up, with no wrap of the sum; R = 0 with INV for b = 0. -/
def Obligations.DivnearIsTheNearestQuotient : Prop :=
  Implements 0x20 .divnear fun w q r =>
    let a := unsignedValue w q.a
    let b := unsignedValue w q.b
    (b = 0 → r.r = 0) ∧ (b ≠ 0 → (r.r.toNat : Int) = ⌊(a : ℚ) / b + 1 / 2⌋ ∧ r.r.toNat = (a + b / 2) / b) ∧
    OnlyINV r (b = 0)

/-- R181: the smallest integer at or above a/b; R = 0 with INV for b = 0. -/
def Obligations.DivceilIsTheCeiling : Prop :=
  Implements 0x21 .divceil fun w q r =>
    let a := unsignedValue w q.a
    let b := unsignedValue w q.b
    (b = 0 → r.r = 0) ∧ (b ≠ 0 → (r.r.toNat : Int) = ⌈(a : ℚ) / b⌉) ∧ OnlyINV r (b = 0)

/-- R182, R183: ceiling and floor of the exact signed quotient; R = 0 with INV for b = 0, and SMIN with OV for (SMIN, −1). -/
def Obligations.SignedDivisionsRoundExactly : Prop :=
  let Divides (round : ℚ → Int) (w : Width) (q : Request) (r : Response) : Prop :=
    let a := signedValue w q.a
    let b := signedValue w q.b
    (b = 0 → r.r = 0 ∧ OnlyINV r True) ∧
    (b ≠ 0 → a = -2 ^ (w.bits - 1) ∧ b = -1 → r.r.toInt = -2 ^ (w.bits - 1) ∧ OnlyOV r True) ∧
    (b ≠ 0 → ¬ (a = -2 ^ (w.bits - 1) ∧ b = -1) → r.r.toInt = round ((a : ℚ) / b) ∧ NoFlags r)
  Implements 0x22 .divceils (Divides fun x => ⌈x⌉) ∧ Implements 0x23 .divfloors (Divides fun x => ⌊x⌋)

/-- R184, with its corollary that the answer is 1 exactly when DIVCEILS and DIVFLOORS set OV. -/
def Obligations.DivsovfPredictsTheOverflow : Prop :=
  (Implements 0x24 .divsovf fun w q r =>
    Answers r.r (signedValue w q.a = -2 ^ (w.bits - 1) ∧ signedValue w q.b = -1) ∧ NoFlags r) ∧
  ∀ (w : Width) (q : Request),
    ((responseOf (.divsovf w) q).r = 1 ↔ (responseOf (.divceils w) q).ov = true) ∧
    ((responseOf (.divsovf w) q).r = 1 ↔ (responseOf (.divfloors w) q).ov = true)

/-- R185: the residue in [0, |b|), INV exactly for b ≤ 0, R = 0 for b = 0; for b > 0 quotient and residue fit together. -/
def Obligations.ModIsTheNonNegativeResidue : Prop :=
  (Implements 0x25 .mod fun w q r =>
    let a := signedValue w q.a
    let b := signedValue w q.b
    (b = 0 → r.r = 0) ∧ (b ≠ 0 → 0 ≤ r.r.toInt ∧ r.r.toInt < |b| ∧ b ∣ a - r.r.toInt) ∧ OnlyINV r (b ≤ 0)) ∧
  ∀ (w : Width) (q : Request), 0 < signedValue w q.b →
    signedValue w q.a =
      signedValue w q.b * (responseOf (.divfloors w) q).r.toInt + (responseOf (.mod w) q).r.toInt

/-- R187: for operands that read the same signed and unsigned, the ceiling is the floor, plus 1 where there is a residue. -/
def Obligations.DivisionConsistency : Prop :=
  ∀ (w : Width) (q : Request), 0 ≤ signedValue w q.a → 0 < signedValue w q.b →
    ((responseOf (.divceil w) q).r.toNat : Int) =
      (responseOf (.divfloors w) q).r.toInt + (if (responseOf (.mod w) q).r ≠ 0 then 1 else 0) ∧
    0 ≤ (responseOf (.mod w) q).r.toInt ∧ (responseOf (.mod w) q).r.toInt < signedValue w q.b

/-! ## Saturating and checked arithmetic (44_overflow_arith.md) -/

/-- R200: for 2, 3 and 4 operands, the saturating sum, overflow judged over the whole sum; it is also the fold of the pairwise
saturating sums with the overflows joined. -/
def Obligations.SataddSaturatesTheWholeSum : Prop :=
  (∀ w : Width,
    (decode (fieldsWord 0 0 0 0 (wselBits w) 0x28) = .ok (.satadd w 2) ∧ Completes (.satadd w 2) fun q r =>
      Saturates w r (unsignedValue w q.a + unsignedValue w q.b)) ∧
    (decode (fieldsWord 0 0 0 1 (wselBits w) 0x28) = .ok (.satadd w 3) ∧ Completes (.satadd w 3) fun q r =>
      Saturates w r (unsignedValue w q.a + unsignedValue w q.b + unsignedValue w q.c)) ∧
    (decode (fieldsWord 0 0 0 2 (wselBits w) 0x28) = .ok (.satadd w 4) ∧ Completes (.satadd w 4) fun q r =>
      Saturates w r (unsignedValue w q.a + unsignedValue w q.b + unsignedValue w q.c + unsignedValue w q.d)) ∧
    ∃ e, decode (fieldsWord 0 0 0 3 (wselBits w) 0x28) = .error e) ∧
  ∀ (w : Width) (q q3 q4 : Request),
    q3.a = (responseOf (.satadd w 2) q).r → q3.b = q.c → q4.a = (responseOf (.satadd w 2) q3).r → q4.b = q.d →
    (responseOf (.satadd w 3) q).r = (responseOf (.satadd w 2) q3).r ∧
    (responseOf (.satadd w 3) q).ov = ((responseOf (.satadd w 2) q).ov || (responseOf (.satadd w 2) q3).ov) ∧
    (responseOf (.satadd w 4) q).r = (responseOf (.satadd w 2) q4).r ∧
    (responseOf (.satadd w 4) q).ov =
      ((responseOf (.satadd w 2) q).ov || (responseOf (.satadd w 2) q3).ov || (responseOf (.satadd w 2) q4).ov)

/-- R201. -/
def Obligations.SatmulSaturatesTheProduct : Prop :=
  Implements 0x29 .satmul fun w q r => Saturates w r (unsignedValue w q.a * unsignedValue w q.b)

/-- R202. -/
def Obligations.SatmadSaturatesProductAndSum : Prop :=
  Implements 0x2A .satmad fun w q r =>
    Saturates w r (unsignedValue w q.a * unsignedValue w q.b + unsignedValue w q.c)

/-- R203, R204, R205, R208. -/
def Obligations.CheckedArithmeticWrapsAround : Prop :=
  (Implements 0x2B .addo fun w q r => WrapsAround w r (signedValue w q.a + signedValue w q.b)) ∧
  (Implements 0x2C .subo fun w q r => WrapsAround w r (signedValue w q.a - signedValue w q.b)) ∧
  Implements 0x2D .mulo fun w q r => WrapsAround w r (signedValue w q.a * signedValue w q.b)

/-- R206, R207: without OV a saturating operation gives the exact result and with OV the maximum; SATADD gives no less than
either operand, and OV exactly where R is not the exact sum. -/
def Obligations.SaturationInvariantAndMonotonicity : Prop :=
  ∀ (w : Width) (q : Request),
    let a := unsignedValue w q.a
    let b := unsignedValue w q.b
    let c := unsignedValue w q.c
    let d := unsignedValue w q.d
    let Exact (r : Response) (z : Nat) : Prop :=
      (r.ov = false → r.r.toNat = z) ∧ (r.ov = true → r.r.toNat = 2 ^ w.bits - 1)
    Exact (responseOf (.satadd w 2) q) (a + b) ∧ Exact (responseOf (.satadd w 3) q) (a + b + c) ∧
    Exact (responseOf (.satadd w 4) q) (a + b + c + d) ∧ Exact (responseOf (.satmul w) q) (a * b) ∧
    Exact (responseOf (.satmad w) q) (a * b + c) ∧
    a ≤ (responseOf (.satadd w 2) q).r.toNat ∧ b ≤ (responseOf (.satadd w 2) q).r.toNat ∧
    ((responseOf (.satadd w 2) q).ov = true ↔ (responseOf (.satadd w 2) q).r.toNat ≠ a + b)

/-- R210: with `i` and `j` the indices of the highest 1 bits, SATMUL never overflows where `i + j ≤ w − 2` and always does where
`i + j ≥ w`; where `i + j = w − 1` it does for some pairs and not for others, at every width. -/
def Obligations.SatmulBitLengthClasses : Prop :=
  (∀ (w : Width) (q : Request) (i j : Nat), 2 ^ i ≤ unsignedValue w q.a → unsignedValue w q.a < 2 ^ (i + 1) →
    2 ^ j ≤ unsignedValue w q.b → unsignedValue w q.b < 2 ^ (j + 1) →
    (i + j ≤ w.bits - 2 → (responseOf (.satmul w) q).ov = false) ∧
    (w.bits ≤ i + j → (responseOf (.satmul w) q).ov = true)) ∧
  ∀ (w : Width) (ov : Bool), ∃ (q : Request) (i j : Nat), 2 ^ i ≤ unsignedValue w q.a ∧
    unsignedValue w q.a < 2 ^ (i + 1) ∧ 2 ^ j ≤ unsignedValue w q.b ∧ unsignedValue w q.b < 2 ^ (j + 1) ∧
    i + j = w.bits - 1 ∧ (responseOf (.satmul w) q).ov = ov
end

