-- ==== Sys2Proof/Laws/Arith.lean ====
section
/-! SUPPORT. One lemma for each operation of Machine/Arith.lean, Machine/Operands.lean and Machine/Flags.lean that says what
it computes in the terms of Mathlib: later proofs cite these and do not unfold the operations. -/

namespace Sys2Proof

/-! ## Widths -/

theorem Width.bits_pos (w : Width) : 0 < w.bits := by cases w <;> decide

theorem Width.bits_le (w : Width) : w.bits ≤ 64 := by cases w <;> decide

theorem Width.two_pow_bits_le (w : Width) : 2 ^ w.bits ≤ 2 ^ 64 := Nat.pow_le_pow_right (by decide) w.bits_le

theorem Width.two_pow_bits_eq (w : Width) : 2 ^ w.bits = 2 * 2 ^ (w.bits - 1) := by cases w <;> decide

end Sys2Proof

namespace Sys2Proof.Machine

theorem uMax_lt_iff (w : Width) (z : Nat) : uMax w < z ↔ 2 ^ w.bits ≤ z := by
  have := Nat.two_pow_pos w.bits
  unfold uMax; omega

/-! ## Operands -/

theorem readU_eq (w : Width) (p : Word) : readU w p = unsignedValue w p := by simp [readU]

theorem readU_lt (w : Width) (p : Word) : readU w p < 2 ^ w.bits := Nat.mod_lt _ (Nat.two_pow_pos _)

/-- The value of an operand fits in the width. -/
theorem unsignedValue_lt (w : Width) (p : Word) : unsignedValue w p < 2 ^ w.bits := readU_eq w p ▸ readU_lt w p

theorem readU_testBit (w : Width) (p : Word) (i : Nat) :
    (readU w p).testBit i = (decide (i < w.bits) && p.getLsbD i) := by
  rw [readU, Nat.testBit_mod_two_pow]; rfl

/-- A port that carries a value of the width has that value. -/
theorem unsignedValue_of_lt {w : Width} {p : Word} (h : p.toNat < 2 ^ w.bits) : unsignedValue w p = p.toNat := by
  rw [unsignedValue, BitVec.toNat_setWidth, Nat.mod_eq_of_lt h]

theorem readN_eq (p : Word) : readN p = p.toNat := rfl

theorem readS_eq (w : Width) (p : Word) : readS w p = signedValue w p := by
  have h : (p.setWidth w.bits).msb = p.getLsbD (w.bits - 1) := by
    cases w <;> simp [BitVec.msb_eq_getLsbD_last, Width.bits]
  rw [readS, signedValue, BitVec.toInt_eq_msb_cond, h, readU_eq]
  norm_cast

theorem signedValue_bounds (w : Width) (p : Word) :
    -2 ^ (w.bits - 1) ≤ signedValue w p ∧ signedValue w p < 2 ^ (w.bits - 1) :=
  ⟨BitVec.le_toInt _, BitVec.toInt_lt⟩

/-- Where the signed value is not negative, it is the unsigned one. -/
theorem signedValue_of_nonneg {w : Width} {p : Word} (h : 0 ≤ signedValue w p) : signedValue w p = unsignedValue w p := by
  unfold signedValue unsignedValue at *
  rw [BitVec.toInt_eq_toNat_cond] at *
  split at h
  next h1 => rw [if_pos h1]
  next =>
    have h2 : (((p.setWidth w.bits).toNat : Nat) : Int) < ((2 ^ w.bits : Nat) : Int) := by
      exact_mod_cast (p.setWidth w.bits).isLt
    omega

theorem clampCount_eq (w : Width) (n : Nat) : clampCount w n = min n w.bits := by
  unfold clampCount; split <;> omega

theorem countOutOfDomain_iff (w : Width) (n : Nat) : countOutOfDomain w n = true ↔ w.bits < n := by
  simp [countOutOfDomain]

/-! ## Results -/

theorem writeU_toNat {v : Nat} (h : v < 2 ^ 64) : (writeU v).toNat = v := by
  simpa [writeU] using h

theorem writeU_toNat_of_width {w : Width} {v : Nat} (h : v < 2 ^ w.bits) : (writeU v).toNat = v :=
  writeU_toNat (h.trans_le w.two_pow_bits_le)

/-- A number of bits stands on R as it is. -/
theorem writeU_toNat_of_le_bits {w : Width} {n : Nat} (h : n ≤ w.bits) : (writeU n).toNat = n :=
  writeU_toNat (by have := w.bits_le; omega)

theorem writeU_uMax_toNat (w : Width) : (writeU (uMax w)).toNat = 2 ^ w.bits - 1 :=
  writeU_toNat_of_width (w := w) (by unfold uMax; have := Nat.two_pow_pos w.bits; omega)

theorem unsignedValue_writeU {w : Width} {v : Nat} (h : v < 2 ^ w.bits) : unsignedValue w (writeU v) = v := by
  rw [unsignedValue, BitVec.toNat_setWidth, writeU_toNat_of_width h, Nat.mod_eq_of_lt h]

theorem writeU_getLsbD (v i : Nat) : (writeU v).getLsbD i = (decide (i < 64) && v.testBit i) := by
  simp [writeU, BitVec.getLsbD_ofNat]

theorem writeS_toInt {w : Width} {v : Int} (h : -2 ^ (w.bits - 1) ≤ v ∧ v < 2 ^ (w.bits - 1)) :
    (writeS w v).toInt = v := by
  have h1 := Width.two_pow_bits_eq w
  rw [writeS, BitVec.toInt_signExtend_of_le w.bits_le, BitVec.toInt_ofInt]
  refine Int.bmod_eq_of_le ?_ ?_ <;> rw [h1] <;> push_cast <;> omega

theorem writeS_toInt_bmod (w : Width) (v : Int) : (writeS w v).toInt = v.bmod (2 ^ w.bits) := by
  rw [writeS, BitVec.toInt_signExtend_of_le w.bits_le, BitVec.toInt_ofInt]

/-- The low w bits of a signed result are its w-bit pattern. -/
theorem setWidth_writeS (w : Width) (v : Int) : (writeS w v).setWidth w.bits = BitVec.ofInt w.bits v := by
  apply BitVec.eq_of_getLsbD_eq
  intro i hi
  have := w.bits_le
  rw [writeS, BitVec.getLsbD_setWidth, BitVec.getLsbD_signExtend]
  simp [hi, show i < 64 by omega]

theorem writeB_answers {b : Bool} {p : Prop} (h : b = true ↔ p) : Answers (writeB b) p := by
  unfold Answers writeB
  cases b <;> simp_all

/-- Appending a field below a number shifts the number up by the field's width. -/
theorem append_toNat {m n : Nat} (x : BitVec m) (y : BitVec n) : (x ++ y).toNat = x.toNat * 2 ^ n + y.toNat := by
  rw [BitVec.toNat_append, Nat.shiftLeft_eq, Nat.mul_comm, ← Nat.two_pow_add_eq_or_of_lt y.isLt]

theorem packRun_toNat {t L : Nat} (ht : t < 128) (hL : L < 128) : (packRun t L).toNat = 1 + t * 2 ^ 8 + L * 2 ^ 16 := by
  have h : (packRun t L).toNat = (0#41 ++ BitVec.ofNat 7 L ++ 0#1 ++ BitVec.ofNat 7 t ++ 0#7 ++ 1#1).toNat := rfl
  simp only [h, append_toNat, BitVec.toNat_ofNat]
  omega

/-! ## Wrapping and exact division -/

theorem wrap_eq (w : Width) (z : Int) : (wrap w z : Int) = z % 2 ^ w.bits :=
  Int.toNat_of_nonneg (Int.emod_nonneg _ (by positivity))

theorem wrap_natCast (w : Width) (x : Nat) : wrap w x = x % 2 ^ w.bits := by
  have := wrap_eq w x
  exact_mod_cast this

theorem swrap_eq (w : Width) (z : Int) : swrap w z = z.bmod (2 ^ w.bits) := by
  have h1 := Width.two_pow_bits_eq w
  have h2 := wrap_eq w z
  have h3 : (2 : Int) ^ w.bits = 2 * 2 ^ (w.bits - 1) := by exact_mod_cast h1
  have hp : (0 : Int) < 2 ^ (w.bits - 1) := by positivity
  have hlt := Int.emod_lt_of_pos z (show (0 : Int) < 2 ^ w.bits by positivity)
  unfold swrap
  rw [Int.bmod_def]
  have hc : (wrap w z < 2 ^ (w.bits - 1)) ↔ ((z % 2 ^ w.bits : Int) < 2 ^ (w.bits - 1)) := by
    rw [← h2]; exact_mod_cast Iff.rfl
  push_cast
  split <;> split <;> omega

theorem fdiv_bounds_of_pos (a : Int) {b : Int} (hb : 0 < b) : fdiv a b * b ≤ a ∧ a < fdiv a b * b + b := by
  have h := Int.mul_fdiv_add_fmod a b
  have h1 := Int.fmod_nonneg_of_pos a hb
  have h2 := Int.fmod_lt_of_pos a hb
  rw [fdiv, Int.mul_comm]
  omega

theorem fdiv_neg_neg (a b : Int) : fdiv (-a) (-b) = fdiv a b := by simp [fdiv]

/-- The quotient rounded toward minus infinity lies within one divisor of the dividend. -/
theorem fdiv_bounds_of_neg (a : Int) {b : Int} (hb : b < 0) : a ≤ fdiv a b * b ∧ fdiv a b * b + b < a := by
  obtain ⟨h1, h2⟩ := fdiv_bounds_of_pos (-a) (b := -b) (by omega)
  rw [fdiv_neg_neg, Int.mul_neg] at h1 h2
  omega

/-- A quotient of two signed values fits in the width, rounded either way, unless it is the one that overflows. -/
theorem quotient_fits {w : Width} {a b c : Int} (ha : -2 ^ (w.bits - 1) ≤ a ∧ a < 2 ^ (w.bits - 1)) (hb : b ≠ 0)
    (h : ¬ (a = -2 ^ (w.bits - 1) ∧ b = -1))
    (hc : (c * b ≤ a ∧ a < c * b + b) ∨ (a ≤ c * b ∧ c * b + b < a) ∨ (c * b - b < a ∧ a ≤ c * b) ∨
      (a < c * b - b ∧ c * b ≤ a)) :
    -2 ^ (w.bits - 1) ≤ c ∧ c < 2 ^ (w.bits - 1) := by
  have hp : (2 : Int) ≤ 2 ^ (w.bits - 1) := by cases w <;> decide
  generalize (2 : Int) ^ (w.bits - 1) = M at *
  by_cases hb1 : b = -1
  · subst hb1
    simp only [and_true] at h
    omega
  by_cases hb2 : b = 1
  · subst hb2; omega
  rcases lt_or_gt_of_ne hb with hneg | hpos
  · have hb3 : b ≤ -2 := by omega
    rcases hc with hc | hc | hc | hc
    · omega
    · constructor <;> by_contra hcc <;> nlinarith
    · omega
    · constructor <;> by_contra hcc <;> nlinarith
  · have hb3 : 2 ≤ b := by omega
    rcases hc with hc | hc | hc | hc
    · constructor <;> by_contra hcc <;> nlinarith
    · omega
    · constructor <;> by_contra hcc <;> nlinarith
    · omega

theorem fdiv_fits {w : Width} {a b : Int} (ha : -2 ^ (w.bits - 1) ≤ a ∧ a < 2 ^ (w.bits - 1)) (hb : b ≠ 0)
    (h : ¬ (a = -2 ^ (w.bits - 1) ∧ b = -1)) : -2 ^ (w.bits - 1) ≤ fdiv a b ∧ fdiv a b < 2 ^ (w.bits - 1) :=
  quotient_fits ha hb h ((lt_or_gt_of_ne hb).elim (fun hn => .inr (.inl (fdiv_bounds_of_neg a hn)))
    fun hp => .inl (fdiv_bounds_of_pos a hp))

theorem cdiv_fits {w : Width} {a b : Int} (ha : -2 ^ (w.bits - 1) ≤ a ∧ a < 2 ^ (w.bits - 1)) (hb : b ≠ 0)
    (h : ¬ (a = -2 ^ (w.bits - 1) ∧ b = -1)) : -2 ^ (w.bits - 1) ≤ cdiv a b ∧ cdiv a b < 2 ^ (w.bits - 1) := by
  have e : cdiv a b = -fdiv (-a) b := rfl
  apply quotient_fits ha hb h
  rcases lt_or_gt_of_ne hb with hn | hp
  · have := fdiv_bounds_of_neg (-a) hn
    rw [e, neg_mul]
    omega
  · have := fdiv_bounds_of_pos (-a) hp
    rw [e, neg_mul]
    omega

theorem fdiv_eq_floor (a : Int) {b : Int} (hb : b ≠ 0) : fdiv a b = ⌊(a : ℚ) / b⌋ := by
  symm
  rw [Int.floor_eq_iff]
  rcases lt_or_gt_of_ne hb with h | h
  · obtain ⟨h1, h2⟩ := fdiv_bounds_of_neg a h
    have hq : (b : ℚ) < 0 := by exact_mod_cast h
    rw [le_div_iff_of_neg hq, div_lt_iff_of_neg hq]
    constructor
    · exact_mod_cast h1
    · have h3 : ((fdiv a b * b + b : ℤ) : ℚ) < a := by exact_mod_cast h2
      push_cast at h3
      linarith
  · obtain ⟨h1, h2⟩ := fdiv_bounds_of_pos a h
    have hq : (0 : ℚ) < b := by exact_mod_cast h
    rw [le_div_iff₀ hq, div_lt_iff₀ hq]
    constructor
    · exact_mod_cast h1
    · have h3 : (a : ℚ) < ((fdiv a b * b + b : ℤ) : ℚ) := by exact_mod_cast h2
      push_cast at h3
      linarith

theorem cdiv_eq_ceil (a : Int) {b : Int} (hb : b ≠ 0) : cdiv a b = ⌈(a : ℚ) / b⌉ := by
  have h := fdiv_eq_floor (-a) hb
  rw [fdiv] at h
  rw [cdiv, h, ← Int.ceil_neg]
  push_cast
  congr 1
  ring

/-- The residue is the Euclidean one. -/
theorem emod_eq (a b : Int) : emod a b = a % b := by
  have h := Int.emod_def a b.natAbs
  rw [emod, fdiv, Int.fdiv_eq_ediv_of_nonneg _ (Int.natCast_nonneg _), ← h, ← Int.abs_eq_natAbs, Int.emod_abs]

end Sys2Proof.Machine
end

