-- ==== Sys2Proof/Laws/Bits.lean ====
section
/-! SUPPORT. What the bit counts of 00_scope.md rule R14 and the rounding of rule R161 compute: bit length, number of 1 bits,
powers of two, trailing zeros, bit reversal, and the least aligned value. -/

namespace Sys2Proof.Machine

/-! ## Bit length -/

theorem bitlen_le_iff (x k : Nat) : bitlen x ≤ k ↔ x < 2 ^ k := by
  unfold bitlen
  split
  · subst x; simp
  · rw [Nat.succ_le_iff, Nat.log2_lt (by assumption)]

theorem lt_two_pow_bitlen (x : Nat) : x < 2 ^ bitlen x := (bitlen_le_iff x _).1 le_rfl

theorem two_pow_le_of_bitlen {x k : Nat} (h : k < bitlen x) : 2 ^ k ≤ x := by
  by_contra hc
  have := (bitlen_le_iff x k).2 (by omega)
  omega

theorem bitlen_pos {x : Nat} (h : x ≠ 0) : 0 < bitlen x := by simp [bitlen, h]

/-- The bit length is the least exponent whose power of two exceeds the number. -/
theorem two_pow_bitlen_le {x j : Nat} (h : x < 2 ^ j) : 2 ^ bitlen x ≤ 2 ^ j :=
  Nat.pow_le_pow_right (by decide) ((bitlen_le_iff x j).2 h)

theorem bitlen_two_pow (k : Nat) : bitlen (2 ^ k) = k + 1 := by simp [bitlen]

/-! ## The number of 1 bits -/

theorem onesBelow_eq_zero_iff (k x : Nat) : onesBelow k x = 0 ↔ ∀ i < k, x.testBit i = false := by
  induction k generalizing x with
  | zero => simp [onesBelow]
  | succ k ih =>
    have h2 : x % 2 = 0 ↔ x.testBit 0 = false := by simp [Nat.testBit_zero]
    rw [onesBelow, Nat.add_eq_zero_iff, ih, h2]
    constructor
    · rintro ⟨h0, h⟩ i hi
      cases i with
      | zero => exact h0
      | succ i => rw [Nat.testBit_succ]; exact h i (by omega)
    · intro h
      exact ⟨h 0 (by omega), fun i hi => by rw [← Nat.testBit_succ]; exact h (i + 1) (by omega)⟩

theorem onesBelow_eq_countP (k x : Nat) : onesBelow k x = (List.range k).countP fun i => x.testBit i := by
  induction k generalizing x with
  | zero => simp [onesBelow]
  | succ k ih =>
    rw [onesBelow, ih, List.range_succ_eq_map, List.countP_cons, List.countP_map]
    have : ((fun i => x.testBit i) ∘ Nat.succ) = fun i => (x / 2).testBit i := by
      funext i; simp [Nat.testBit_succ]
    rw [this, Nat.testBit_zero, Nat.add_comm]
    congr 1
    rcases Nat.mod_two_eq_zero_or_one x with h | h <;> simp [h]

/-- Counting beyond the bit length counts nothing more. -/
theorem onesBelow_of_lt {k x : Nat} (h : x < 2 ^ k) : onesBelow k x = popcount x := by
  have hstep : ∀ k x : Nat, x < 2 ^ k → onesBelow (k + 1) x = onesBelow k x := by
    intro k
    induction k with
    | zero => intro x hx; simp [onesBelow]; omega
    | succ k ih =>
      intro x hx
      rw [onesBelow, ih (x / 2) (by omega)]
      rfl
  have hle := (bitlen_le_iff x k).2 h
  unfold popcount
  induction k, hle using Nat.le_induction with
  | base => rfl
  | succ n hn ih => rw [hstep n x ((bitlen_le_iff x n).1 hn), ih ((bitlen_le_iff x n).1 hn)]

theorem popcount_eq_countP {k x : Nat} (h : x < 2 ^ k) : popcount x = (List.range k).countP fun i => x.testBit i := by
  rw [← onesBelow_of_lt h, onesBelow_eq_countP]

theorem popcount_two_mul (x : Nat) : popcount (2 * x) = popcount x := by
  have hx := lt_two_pow_bitlen x
  rw [← onesBelow_of_lt (k := bitlen x + 1) (x := 2 * x) (by omega), onesBelow]
  simp [popcount]

theorem popcount_two_mul_add_one (x : Nat) : popcount (2 * x + 1) = popcount x + 1 := by
  have hx := lt_two_pow_bitlen x
  rw [← onesBelow_of_lt (k := bitlen x + 1) (x := 2 * x + 1) (by omega), onesBelow]
  have h1 : (2 * x + 1) % 2 = 1 := by omega
  have h2 : (2 * x + 1) / 2 = x := by omega
  rw [h1, h2, Nat.add_comm]
  rfl

theorem popcount_zero : popcount 0 = 0 := by decide

theorem popcount_mul_two_pow (x t : Nat) : popcount (x * 2 ^ t) = popcount x := by
  induction t with
  | zero => simp
  | succ t ih => rw [pow_succ, ← mul_assoc, mul_comm, popcount_two_mul, ih]

theorem popcount_mask (L : Nat) : popcount (2 ^ L - 1) = L := by
  induction L with
  | zero => decide
  | succ L ih =>
    have : 2 ^ (L + 1) - 1 = 2 * (2 ^ L - 1) + 1 := by have := Nat.two_pow_pos L; omega
    rw [this, popcount_two_mul_add_one, ih]

theorem popcount_eq_zero_iff (x : Nat) : popcount x = 0 ↔ x = 0 := by
  induction x using Nat.strongRecOn with
  | ind x ih =>
    obtain ⟨y, rfl | rfl⟩ : ∃ y, x = 2 * y ∨ x = 2 * y + 1 := ⟨x / 2, by omega⟩
    · rw [popcount_two_mul]
      rcases Nat.eq_zero_or_pos y with rfl | h
      · simp [popcount_zero]
      · rw [ih y (by omega)]; omega
    · rw [popcount_two_mul_add_one]; omega

theorem popcount_eq_one_iff (x : Nat) : popcount x = 1 ↔ ∃ k, x = 2 ^ k := by
  constructor
  · induction x using Nat.strongRecOn with
    | ind x ih =>
      intro h
      obtain ⟨y, rfl | rfl⟩ : ∃ y, x = 2 * y ∨ x = 2 * y + 1 := ⟨x / 2, by omega⟩
      · rw [popcount_two_mul] at h
        have hy : y ≠ 0 := by rintro rfl; simp [popcount_zero] at h
        obtain ⟨k, hk⟩ := ih y (by omega) h
        exact ⟨k + 1, by rw [hk, pow_succ]; omega⟩
      · rw [popcount_two_mul_add_one] at h
        have : y = 0 := (popcount_eq_zero_iff y).1 (by omega)
        exact ⟨0, by simp [this]⟩
  · rintro ⟨k, rfl⟩
    simpa [popcount_two_mul_add_one 0, popcount_zero] using popcount_mul_two_pow 1 k

theorem ispow2_iff (x : Nat) : ispow2 x = true ↔ ∃ k, x = 2 ^ k := by
  rw [ispow2, beq_iff_eq, popcount_eq_one_iff]

/-! ## Trailing zeros -/

theorem zerosBelow_spec (k : Nat) : ∀ x : Nat, x ≠ 0 → x < 2 ^ k →
    2 ^ zerosBelow k x ∣ x ∧ ¬ 2 ^ (zerosBelow k x + 1) ∣ x := by
  induction k with
  | zero => intro x h0 h; omega
  | succ k ih =>
    intro x h0 h
    rw [zerosBelow]
    split
    next h1 => exact ⟨by simp, by rw [zero_add, pow_one]; omega⟩
    next h1 =>
      obtain ⟨h2, h3⟩ := ih (x / 2) (by omega) (by omega)
      have hx : x = x / 2 * 2 := by omega
      constructor
      · rw [hx, Nat.mul_div_cancel _ (by decide), pow_succ]
        exact Nat.mul_dvd_mul_right h2 2
      · rw [pow_succ, hx, Nat.mul_div_cancel _ (by decide), Nat.mul_dvd_mul_iff_right (by decide)]
        exact h3

theorem trailingZeros_dvd {x : Nat} (h : x ≠ 0) : 2 ^ trailingZeros x ∣ x :=
  (zerosBelow_spec _ x h (lt_two_pow_bitlen x)).1

theorem trailingZeros_not_dvd {x : Nat} (h : x ≠ 0) : ¬ 2 ^ (trailingZeros x + 1) ∣ x :=
  (zerosBelow_spec _ x h (lt_two_pow_bitlen x)).2

theorem le_trailingZeros_iff {x : Nat} (h : x ≠ 0) (j : Nat) : j ≤ trailingZeros x ↔ 2 ^ j ∣ x := by
  constructor
  · intro hj
    exact (pow_dvd_pow 2 hj).trans (trailingZeros_dvd h)
  · intro hd
    by_contra hc
    exact trailingZeros_not_dvd h ((pow_dvd_pow 2 (by omega)).trans hd)

theorem trailingZeros_lt {x k : Nat} (h : x ≠ 0) (hx : x < 2 ^ k) : trailingZeros x < k := by
  have h1 := Nat.le_of_dvd (by omega) (trailingZeros_dvd h)
  exact (Nat.pow_lt_pow_iff_right (by decide)).1 (h1.trans_lt hx)

/-- The trailing zeros of a run of ones are the zeros it is shifted by. -/
theorem trailingZeros_run (t : Nat) {L : Nat} (hL : 1 ≤ L) : trailingZeros ((2 ^ L - 1) * 2 ^ t) = t := by
  have ht := Nat.two_pow_pos t
  have hL2 : 2 ^ L = 2 * 2 ^ (L - 1) := by rw [← pow_succ']; congr 1; omega
  have hLp := Nat.two_pow_pos (L - 1)
  have hx : (2 ^ L - 1) * 2 ^ t ≠ 0 := by apply Nat.mul_ne_zero <;> omega
  apply le_antisymm
  · by_contra hc
    have h := (le_trailingZeros_iff hx (t + 1)).1 (by omega)
    rw [pow_succ', Nat.mul_dvd_mul_iff_right ht] at h
    omega
  · exact (le_trailingZeros_iff hx t).2 (Dvd.intro_left _ rfl)

theorem two_pow_dvd_iff (x j : Nat) : 2 ^ j ∣ x ↔ ∀ i < j, x.testBit i = false := by
  constructor
  · rintro ⟨c, rfl⟩ i hi
    rw [Nat.testBit_two_pow_mul]; simp; omega
  · intro h
    rw [Nat.dvd_iff_mod_eq_zero]
    apply Nat.eq_of_testBit_eq
    intro i
    rw [Nat.testBit_mod_two_pow]
    by_cases hi : i < j
    · simp [h i hi]
    · simp [hi]

/-- A power of two divides the bitwise or of two numbers exactly when it divides both. -/
theorem two_pow_dvd_or_iff (a b j : Nat) : 2 ^ j ∣ a ||| b ↔ 2 ^ j ∣ a ∧ 2 ^ j ∣ b := by
  simp only [two_pow_dvd_iff, Nat.testBit_or, Bool.or_eq_false_iff]
  exact ⟨fun h => ⟨fun i hi => (h i hi).1, fun i hi => (h i hi).2⟩, fun h i hi => ⟨h.1 i hi, h.2 i hi⟩⟩

/-! ## Bit reversal -/

theorem reverseLow_lt (k x : Nat) : reverseLow k x < 2 ^ k := by
  induction k generalizing x with
  | zero => simp [reverseLow]
  | succ k ih =>
    have h1 := ih (x / 2)
    have h2 : x % 2 < 2 := Nat.mod_lt _ (by decide)
    have h3 : x % 2 * 2 ^ k ≤ 2 ^ k := by
      calc x % 2 * 2 ^ k ≤ 1 * 2 ^ k := Nat.mul_le_mul_right _ (by omega)
        _ = 2 ^ k := one_mul _
    rw [reverseLow, pow_succ]
    omega

theorem reverseLow_testBit (k x i : Nat) (hi : i < k) : (reverseLow k x).testBit i = x.testBit (k - 1 - i) := by
  induction k generalizing x i with
  | zero => omega
  | succ k ih =>
    have hlt := reverseLow_lt k (x / 2)
    rw [reverseLow, Nat.mul_comm, Nat.testBit_two_pow_mul_add _ hlt]
    split
    next h =>
      rw [ih (x / 2) i h, ← Nat.testBit_succ]
      congr 1
      omega
    next h =>
      have : i = k := by omega
      subst this
      simp [Nat.testBit_zero]

/-! ## The least aligned value -/

/-- `alignUp` gives the least value at or above `v` congruent to `sk` modulo `al`. -/
theorem alignUp_spec (v : Nat) {al : Nat} (sk : Nat) (h : al ≠ 0) :
    v ≤ alignUp v al sk ∧ (al : Int) ∣ (alignUp v al sk : Int) - sk ∧
      ∀ m : Nat, v ≤ m → (al : Int) ∣ (m : Int) - sk → alignUp v al sk ≤ m := by
  have hal : (al : Int) ≠ 0 := by exact_mod_cast h
  have hpos : (0 : Int) < al := by omega
  have hnn := Int.emod_nonneg ((sk : Int) - v) hal
  have hlt := Int.emod_lt_of_pos ((sk : Int) - v) hpos
  have hval : (alignUp v al sk : Int) = v + ((sk : Int) - v) % al := by
    rw [alignUp, emod_eq]; push_cast; rw [Int.toNat_of_nonneg hnn]
  have hdiv : (al : Int) ∣ (alignUp v al sk : Int) - sk := by
    have := Int.dvd_neg.2 (Int.dvd_self_sub_emod (x := (sk : Int) - v) (m := al))
    rw [hval]
    convert this using 1
    ring
  refine ⟨by omega, hdiv, fun m hm hd => ?_⟩
  by_contra hc
  have h1 : (al : Int) ∣ (alignUp v al sk : Int) - m := by
    have := Int.dvd_sub hdiv hd
    convert this using 1
    ring
  have h2 := Int.le_of_dvd (by omega) h1
  omega

theorem noAlignedValueFits_iff (w : Width) (v : Nat) {al : Nat} (sk : Nat) (h : al ≠ 0) :
    NoAlignedValueFits w v al sk ↔ 2 ^ w.bits ≤ alignUp v al sk := by
  obtain ⟨h1, h2, h3⟩ := alignUp_spec v sk h
  exact ⟨fun hn => hn _ h1 h2, fun hf m hm hd => hf.trans (h3 m hm hd)⟩

/-- Rounding a value of the width up to a multiple of a power of two stays within the width or reaches `2^w`. -/
theorem alignUp_two_pow_le {w : Width} {v k : Nat} (hv : v < 2 ^ w.bits) (hk : 2 ^ k < 2 ^ w.bits) :
    alignUp v (2 ^ k) 0 ≤ 2 ^ w.bits := by
  refine (alignUp_spec v 0 (Nat.two_pow_pos k).ne').2.2 _ hv.le ?_
  have h := pow_dvd_pow 2 ((Nat.pow_lt_pow_iff_right (by decide)).1 hk).le
  simpa using (by exact_mod_cast h : ((2 ^ k : Nat) : Int) ∣ ((2 ^ w.bits : Nat) : Int))

/-- Rounding down, as R163 computes it. -/
theorem sub_emod_toNat (v al : Nat) : ((v : Int) - emod v al).toNat = al * (v / al) := by
  have h1 := Nat.div_add_mod v al
  have h2 : (v : Int) % (al : Int) = ((v % al : Nat) : Int) := by push_cast; rfl
  rw [emod_eq, h2]
  omega

theorem alignUp_lt (v : Nat) {al : Nat} (sk : Nat) (h : al ≠ 0) : alignUp v al sk < v + al := by
  have hal : (al : Int) ≠ 0 := by exact_mod_cast h
  have hlt := Int.emod_lt_of_pos ((sk : Int) - v) (b := al) (by omega)
  have hnn := Int.emod_nonneg ((sk : Int) - v) hal
  rw [alignUp, emod_eq]
  omega

end Sys2Proof.Machine
end

