-- ==== Sys2Proof/Laws/Decode.lean ====
section
/-! SUPPORT. The fields of an encoded word are the fields it was made from (30_encoding.md rule R70). -/

namespace Sys2Proof

theorem wselOf_lt (w : Width) : wselOf w < 4 := by cases w <;> decide

theorem widthOfWsel_wselOf (w : Width) : widthOfWsel (wselOf w) = w := by cases w <;> rfl

section Fields
variable {opc arity pw ps : Nat} (w : Width) (ho : opc < 64) (ha : arity < 4) (hW : pw < 128) (hS : ps < 128)
include ho ha hW hS

theorem commandWord_toNat : (commandWord opc w arity pw ps).toNat =
    opc + wselOf w * 2 ^ 6 + arity * 2 ^ 8 + pw * 2 ^ 10 + ps * 2 ^ 17 := by
  have := wselOf_lt w
  rw [commandWord, BitVec.toNat_ofNat, Nat.mod_eq_of_lt]
  omega

theorem opcField_commandWord : opcField (commandWord opc w arity pw ps) = opc := by
  have := wselOf_lt w
  rw [opcField, commandField, commandWord_toNat w ho ha hW hS]; omega

theorem wselField_commandWord : wselField (commandWord opc w arity pw ps) = wselOf w := by
  have := wselOf_lt w
  rw [wselField, commandField, commandWord_toNat w ho ha hW hS]; omega

theorem arityField_commandWord : arityField (commandWord opc w arity pw ps) = arity := by
  have := wselOf_lt w
  rw [arityField, commandField, commandWord_toNat w ho ha hW hS]; omega

theorem pwField_commandWord : pwField (commandWord opc w arity pw ps) = pw := by
  have := wselOf_lt w
  rw [pwField, commandField, commandWord_toNat w ho ha hW hS]; omega

theorem psField_commandWord : psField (commandWord opc w arity pw ps) = ps := by
  have := wselOf_lt w
  rw [psField, commandField, commandWord_toNat w ho ha hW hS]; omega

theorem rsvField_commandWord : rsvField (commandWord opc w arity pw ps) = 0 := by
  have := wselOf_lt w
  rw [rsvField, commandField, commandWord_toNat w ho ha hW hS]; omega

end Fields

/-- PW and PS together are `CMD[23:10]`, the field R77 tests at once. -/
theorem parameterField_eq (cmd : Command) : commandField cmd 10 14 = pwField cmd + psField cmd * 2 ^ 7 := by
  unfold pwField psField commandField
  omega

/-- A word is the sum of its fields. -/
theorem toNat_eq_fields (cmd : Command) :
    cmd.toNat = opcField cmd + wselField cmd * 2 ^ 6 + arityField cmd * 2 ^ 8 + pwField cmd * 2 ^ 10 +
      psField cmd * 2 ^ 17 + rsvField cmd * 2 ^ 24 := by
  have := cmd.isLt
  unfold opcField wselField arityField pwField psField rsvField commandField
  omega

/-- The bits of a slice are the field that starts at its low end. -/
theorem extractLsb_toNat_eq_field (cmd : Command) {hi lo n : Nat} (hn : hi - lo + 1 = n) :
    (cmd.extractLsb hi lo).toNat = commandField cmd lo n := by
  subst hn
  simp [BitVec.extractLsb_toNat, commandField, Nat.shiftRight_eq_div_pow]

/-- The opcodes that name no operation, whatever the other fields (R75). -/
theorem operationAt_eq_none_iff (w : Width) (k W S : Nat) {opc : Nat} (h : opc < 64) :
    operationAt w k W S opc = none ↔
      opc ∈ [0x00, 0x14, 0x15, 0x16, 0x17, 0x1C, 0x1D, 0x1E, 0x1F, 0x26, 0x27] ∨ 0x2E ≤ opc := by
  have key : ∀ opc < 64, (operationAt .w8 0 0 0 opc).isNone =
      decide (opc ∈ [0x00, 0x14, 0x15, 0x16, 0x17, 0x1C, 0x1D, 0x1E, 0x1F, 0x26, 0x27] ∨ 0x2E ≤ opc) := by
    decide
  have h2 : (operationAt w k W S opc).isNone = (operationAt .w8 0 0 0 opc).isNone := by
    unfold operationAt; split <;> rfl
  rw [← Option.isNone_iff_eq_none, h2, key opc h, decide_eq_true_iff]

end Sys2Proof
end

