-- ==== Sys2Proof/Laws/Flags.lean ====
section
/-! SUPPORT. What each condition and each shared response of Machine/Flags.lean is, said once. -/

namespace Sys2Proof.Machine

/-! ## Conditions -/

theorem exceedsUnsigned_iff (w : Width) (z : Nat) : exceedsUnsigned w z = true ↔ 2 ^ w.bits ≤ z := by
  rw [exceedsUnsigned, decide_eq_true_iff, uMax_lt_iff]

theorem outsideSigned_iff (w : Width) (z : Int) : outsideSigned w z = true ↔ DoesNotFit w z := by
  unfold outsideSigned DoesNotFit sMin sMax
  rw [decide_eq_true_iff]
  omega

theorem quotientOverflows_iff (w : Width) (a b : Int) :
    quotientOverflows w a b = true ↔ a = -2 ^ (w.bits - 1) ∧ b = -1 := by
  unfold quotientOverflows sMin
  exact decide_eq_true_iff

/-! ## Responses -/

theorem zeroOnOverflow_of_lt {w : Width} {z : Nat} (h : z < 2 ^ w.bits) : zeroOnOverflow w z = result (writeU z) := by
  rw [zeroOnOverflow, if_neg]
  rw [exceedsUnsigned_iff]
  omega

theorem zeroOnOverflow_of_ge {w : Width} {z : Nat} (h : 2 ^ w.bits ≤ z) : zeroOnOverflow w z = resultOV 0 true := by
  rw [zeroOnOverflow, if_pos ((exceedsUnsigned_iff w z).2 h)]
  rfl

theorem saturated_of_lt {w : Width} {z : Nat} (h : z < 2 ^ w.bits) : saturated w z = result (writeU z) := by
  rw [saturated, if_neg]
  rw [exceedsUnsigned_iff]
  omega

theorem saturated_of_ge {w : Width} {z : Nat} (h : 2 ^ w.bits ≤ z) :
    saturated w z = resultOV (writeU (uMax w)) true := by
  rw [saturated, if_pos ((exceedsUnsigned_iff w z).2 h)]

/-- Everything a saturating response says. -/
theorem saturated_saturates (w : Width) (z : Nat) : Saturates w (saturated w z) z := by
  have hp := Nat.two_pow_pos w.bits
  by_cases h : z < 2 ^ w.bits
  · rw [saturated_of_lt h]
    exact ⟨by rw [min_eq_left (by omega)]; exact writeU_toNat_of_width h, by simp [result]; omega, rfl, rfl⟩
  · rw [saturated_of_ge (by omega)]
    exact ⟨by rw [min_eq_right (by omega)]; exact writeU_uMax_toNat w, by simp [resultOV]; omega, rfl, rfl⟩

/-- Everything a checked response says. -/
theorem wrapped_wraps (w : Width) (z : Int) : WrapsAround w (wrapped w z) z := by
  have h2 := w.two_pow_bits_eq
  have h3 : (2 : Int) ^ w.bits = 2 * 2 ^ (w.bits - 1) := by exact_mod_cast h2
  have e : (writeS w (swrap w z)).toInt = z.bmod (2 ^ w.bits) := by
    rw [swrap_eq, writeS_toInt]
    have b1 := Int.le_bmod (x := z) (m := 2 ^ w.bits) (Nat.two_pow_pos _)
    have b2 := Int.bmod_lt (x := z) (m := 2 ^ w.bits) (Nat.two_pow_pos _)
    push_cast at b1 b2
    omega
  refine ⟨e, ?_, outsideSigned_iff w z, rfl, rfl⟩
  have hs : writeS w (swrap w z) = writeS w z := by
    apply BitVec.eq_of_toInt_eq
    rw [e, writeS_toInt_bmod]
  simp only [wrapped, resultOV]
  rw [hs, unsignedValue, setWidth_writeS, BitVec.toNat_ofInt, Int.toNat_of_nonneg (Int.emod_nonneg _ (by positivity))]
  push_cast
  rfl

end Sys2Proof.Machine
end

