-- ==== Sys2Proof/Machine/HostProgram.lean ====
section
/-! DEFINITION. The host program notation of 30_encoding.md rule R82. It "defines no hardware": the step of the FWAD does not use
it. A line that issues a request gets the response of rule R35, which no latency, queue or ready policy changes (R46). -/

namespace Sys2Proof.HostProgram

/-- The number of a host register, h0 to h15. -/
abbrev Register := Fin 16

/-- What a conditional line tests. -/
inductive Condition where
  | ov
  | notOV
  | inv
  | ill
  | equal (x y : Register)
  | different (x y : Register)
  deriving DecidableEq, Repr

/-- A line of a host program; a label is the number of the line it marks. -/
inductive Line where
  /-- `hd <- #imm` -/
  | loadImmediate (d : Register) (imm : Word)
  /-- `hd <- OP.<w> hA, hB, ...` -/
  | issue (d : Register) (i : Instr) (operands : List Register)
  /-- `if ... goto L` -/
  | branch (c : Condition) (label : Nat)
  /-- `goto L` -/
  | jump (label : Nat)
  /-- `hd <- mem[hX]` -/
  | loadWord (d x : Register)
  /-- `mem[hX] <- hs` -/
  | storeWord (x s : Register)
  /-- `halt` -/
  | halt
  deriving DecidableEq, Repr

/-- The host: its registers, the flags it latched, its word array by rising index with no word 0 listed, the line it is at,
and whether it has halted. -/
structure Caller where
  registers : Vector Word 16
  ov : Bool
  inv : Bool
  ill : Bool
  words : List (Nat × Word)
  line : Nat
  halted : Bool
  deriving DecidableEq, Repr

/-- The word at an index; an unlisted one is 0, as 95_test_vectors.md section 8 says. -/
def wordAt : List (Nat × Word) → Nat → Word
  | [], _ => 0
  | (i, v) :: rest, k => if i = k then v else wordAt rest k

/-- The array with the word at `k` replaced by `v`. -/
def putWord (k : Nat) (v : Word) : List (Nat × Word) → List (Nat × Word)
  | [] => if v = 0 then [] else [(k, v)]
  | (i, u) :: rest =>
    if i < k then (i, u) :: putWord k v rest
    else
      let after := if i = k then rest else (i, u) :: rest
      if v = 0 then after else (k, v) :: after

/-- The indices rise strictly and no word listed is 0. -/
abbrev WordsCanonical (l : List (Nat × Word)) : Prop := (l.Pairwise fun p q => p.1 < q.1) ∧ ∀ p ∈ l, p.2 ≠ 0

def Caller.write (h : Caller) (d : Register) (v : Word) : Caller := { h with registers := h.registers.set d v }

def Caller.holds (h : Caller) : Condition → Bool
  | .ov => h.ov
  | .notOV => !h.ov
  | .inv => h.inv
  | .ill => h.ill
  | .equal x y => h.registers.get x == h.registers.get y
  | .different x y => h.registers.get x != h.registers.get y

/-- The request a line issues: unnamed ports are 0. -/
def Caller.request (h : Caller) (i : Instr) (operands : List Register) : Machine.Request :=
  let port (k : Nat) : Word := (operands[k]?.map fun r => h.registers.get r).getD 0
  { cmd := encode i, a := port 0, b := port 1, c := port 2, d := port 3 }

/-- The host takes the response: R into the register, and the three flags. -/
def Caller.take (h : Caller) (d : Register) (r : Machine.Response) : Caller :=
  { h.write d r.r with ov := r.ov, inv := r.inv, ill := r.ill }

/-- What a line does, the move to the next line apart. -/
def Line.run (l : Line) (h : Caller) : Caller :=
  let next := { h with line := h.line + 1 }
  match l with
  | .loadImmediate d imm => next.write d imm
  | .issue d i operands => next.take d (Machine.respond (h.request i operands))
  | .branch c label => if h.holds c then { h with line := label } else next
  | .jump label => { h with line := label }
  | .loadWord d x => next.write d (wordAt h.words (h.registers.get x).toNat)
  | .storeWord x s => { next with words := putWord (h.registers.get x).toNat (h.registers.get s) h.words }
  | .halt => { h with halted := true }

/-- One line of the program; nothing where the host has halted or the program has no such line. -/
def runLine (program : List Line) (h : Caller) : Option Caller :=
  if h.halted then none else program[h.line]?.map fun l => l.run h

end Sys2Proof.HostProgram
end

