-- ==== Sys2Proof/Laws/HostProgram.lean ====
section
/-! SUPPORT. The word array of a host program: reading after writing, and that writing keeps the canonical form. -/

namespace Sys2Proof.HostProgram

/-- Every entry after a write was there before or is the one written. -/
theorem mem_putWord {k : Nat} {v : Word} {l : List (Nat × Word)} {p : Nat × Word} (h : p ∈ putWord k v l) :
    p ∈ l ∨ p = (k, v) ∧ v ≠ 0 := by
  induction l with
  | nil => simp only [putWord] at h; split at h <;> simp_all
  | cons q rest ih =>
    obtain ⟨i, u⟩ := q
    simp only [putWord] at h
    split at h
    · rcases List.mem_cons.1 h with rfl | h
      · simp
      · exact (ih h).imp_left (List.mem_cons_of_mem _)
    · split at h <;> split at h <;> simp_all <;> tauto

theorem putWord_canonical {k : Nat} {v : Word} {l : List (Nat × Word)} (h : WordsCanonical l) :
    WordsCanonical (putWord k v l) := by
  refine ⟨?_, fun p hp => ?_⟩
  · induction l with
    | nil => simp only [putWord]; split <;> simp
    | cons q rest ih =>
      obtain ⟨i, u⟩ := q
      obtain ⟨h1, h2⟩ := List.pairwise_cons.1 h.1
      have hr : WordsCanonical rest := ⟨h2, fun p hp => h.2 p (List.mem_cons_of_mem _ hp)⟩
      simp only [putWord]
      split
      next hi =>
        refine List.pairwise_cons.2 ⟨fun p hp => ?_, ih hr⟩
        rcases mem_putWord hp with hp | ⟨rfl, _⟩
        · exact h1 p hp
        · exact hi
      next hi =>
        have hafter : ∀ p ∈ (if i = k then rest else (i, u) :: rest), k < p.1 := by
          intro p hp
          split at hp
          next he => exact he ▸ h1 p hp
          next he =>
            rcases List.mem_cons.1 hp with rfl | hp
            · simp only; omega
            · have := h1 p hp; simp only at this; omega
        have hp : (if i = k then rest else (i, u) :: rest).Pairwise fun p q => p.1 < q.1 := by
          split
          · exact h2
          · exact h.1
        split
        · exact hp
        · exact List.pairwise_cons.2 ⟨hafter, hp⟩
  · rcases mem_putWord hp with hp | ⟨rfl, hv⟩
    · exact h.2 p hp
    · exact hv

theorem wordAt_of_lt {l : List (Nat × Word)} {j : Nat} (h : ∀ p ∈ l, j < p.1) : wordAt l j = 0 := by
  induction l with
  | nil => rfl
  | cons q rest ih =>
    obtain ⟨i, u⟩ := q
    have : i ≠ j := (h (i, u) List.mem_cons_self).ne'
    rw [wordAt, if_neg this, ih fun p hp => h p (List.mem_cons_of_mem _ hp)]

/-- Reading after writing gives the word written at its own index, and elsewhere what stood there. -/
theorem wordAt_putWord {k : Nat} {v : Word} {l : List (Nat × Word)} (h : WordsCanonical l) (j : Nat) :
    wordAt (putWord k v l) j = if j = k then v else wordAt l j := by
  induction l with
  | nil =>
    rw [putWord]
    by_cases hv : v = 0
    · rw [if_pos hv, hv]; simp [wordAt]
    · rw [if_neg hv, wordAt, wordAt]
      by_cases hj : j = k
      · rw [if_pos hj.symm, if_pos hj]
      · rw [if_neg (Ne.symm hj), if_neg hj]; rfl
  | cons q rest ih =>
    obtain ⟨i, u⟩ := q
    obtain ⟨h1, h2⟩ := List.pairwise_cons.1 h.1
    have hr : WordsCanonical rest := ⟨h2, fun p hp => h.2 p (List.mem_cons_of_mem _ hp)⟩
    rw [putWord]
    split
    next hi =>
      rw [wordAt, ih hr, wordAt]
      split <;> split <;> first | rfl | omega
    next hi =>
      have habove : ∀ p ∈ (if i = k then rest else (i, u) :: rest), k < p.1 := by
        intro p hp
        split at hp
        next he => exact he ▸ h1 p hp
        next he =>
          rcases List.mem_cons.1 hp with rfl | hp
          · simp only; omega
          · have := h1 p hp; simp only at this; omega
      have hafter : wordAt (if i = k then rest else (i, u) :: rest) j =
          if j = k then 0 else wordAt ((i, u) :: rest) j := by
        by_cases hj : j = k
        · rw [if_pos hj, hj, wordAt_of_lt habove]
        · rw [if_neg hj]
          split
          next he => rw [wordAt, if_neg (by omega)]
          next => rfl
      by_cases hv : v = 0
      · simp only [hv, if_true, hafter]
      · simp only [if_neg hv, wordAt, hafter]
        by_cases hj : j = k
        · simp [hj]
        · simp [hj, Ne.symm hj]

end Sys2Proof.HostProgram
end

