-- ==== Sys2Proof/Laws/State.lean ====
section
/-! SUPPORT. One lemma for each field of State under each of its updates, so that no proof unfolds a record update. -/

namespace Sys2Proof.Machine

@[simp] theorem State.enqueue_params (s : State) (r : Response) :
    (s.enqueue r).params = s.params := rfl
@[simp] theorem State.enqueue_queue (s : State) (r : Response) :
    (s.enqueue r).queue = s.queue ++ [{ request := s.now.request, age := 0, response := r }] := rfl
@[simp] theorem State.enqueue_now (s : State) (r : Response) :
    (s.enqueue r).now = s.now := rfl
@[simp] theorem State.enqueue_upcoming (s : State) (r : Response) :
    (s.enqueue r).upcoming = s.upcoming := rfl
@[simp] theorem State.enqueue_recurring (s : State) (r : Response) :
    (s.enqueue r).recurring = s.recurring := rfl
@[simp] theorem State.enqueue_stall (s : State) (r : Response) :
    (s.enqueue r).stall = s.stall := rfl
@[simp] theorem State.enqueue_freeIndex (s : State) (r : Response) :
    (s.enqueue r).freeIndex = s.freeIndex := rfl

@[simp] theorem State.serve_params (s : State) :
    s.serve.params = s.params := rfl
@[simp] theorem State.serve_queue (s : State) :
    s.serve.queue = (if s.consumes then s.queue.tail else s.queue).map Entry.older := rfl
@[simp] theorem State.serve_now (s : State) :
    s.serve.now = s.now := rfl
@[simp] theorem State.serve_upcoming (s : State) :
    s.serve.upcoming = s.upcoming := rfl
@[simp] theorem State.serve_recurring (s : State) :
    s.serve.recurring = s.recurring := rfl
@[simp] theorem State.serve_stall (s : State) :
    s.serve.stall = s.stall := rfl
@[simp] theorem State.serve_freeIndex (s : State) :
    s.serve.freeIndex = s.freeIndex := rfl

@[simp] theorem State.resetEdge_params (s : State) :
    s.resetEdge.params = s.params := rfl
@[simp] theorem State.resetEdge_queue (s : State) :
    s.resetEdge.queue = [] := rfl
@[simp] theorem State.resetEdge_now (s : State) :
    s.resetEdge.now = s.now := rfl
@[simp] theorem State.resetEdge_upcoming (s : State) :
    s.resetEdge.upcoming = s.upcoming := rfl
@[simp] theorem State.resetEdge_recurring (s : State) :
    s.resetEdge.recurring = s.recurring := rfl
@[simp] theorem State.resetEdge_stall (s : State) :
    s.resetEdge.stall = s.stall := rfl
@[simp] theorem State.resetEdge_freeIndex (s : State) :
    s.resetEdge.freeIndex = s.freeIndex := rfl

@[simp] theorem State.nextCycle_params (s : State) :
    s.nextCycle.params = s.params := rfl
@[simp] theorem State.nextCycle_queue (s : State) :
    s.nextCycle.queue = s.queue := rfl
@[simp] theorem State.nextCycle_now (s : State) :
    s.nextCycle.now = s.toCome.headD Cycle.idle := rfl
@[simp] theorem State.nextCycle_upcoming (s : State) :
    s.nextCycle.upcoming = s.toCome.tail := rfl
@[simp] theorem State.nextCycle_recurring (s : State) :
    s.nextCycle.recurring = s.recurring := rfl
@[simp] theorem State.nextCycle_stall (s : State) :
    s.nextCycle.stall = s.nextStall := rfl
@[simp] theorem State.nextCycle_freeIndex (s : State) :
    s.nextCycle.freeIndex = s.freeIndex + 1 := rfl

@[simp] theorem State.presenting_params (s : State) (cmd : Command) :
    (s.presenting cmd).params = s.params := rfl
@[simp] theorem State.presenting_queue (s : State) (cmd : Command) :
    (s.presenting cmd).queue = s.queue.take s.params.maxOutstandingLessOne := rfl
@[simp] theorem State.presenting_now (s : State) (cmd : Command) :
    (s.presenting cmd).now = s.now.presenting cmd := rfl
@[simp] theorem State.presenting_upcoming (s : State) (cmd : Command) :
    (s.presenting cmd).upcoming = s.upcoming := rfl
@[simp] theorem State.presenting_recurring (s : State) (cmd : Command) :
    (s.presenting cmd).recurring = s.recurring := rfl
@[simp] theorem State.presenting_stall (s : State) (cmd : Command) :
    (s.presenting cmd).stall = 0 := rfl
@[simp] theorem State.presenting_freeIndex (s : State) (cmd : Command) :
    (s.presenting cmd).freeIndex = s.freeIndex := rfl

@[simp] theorem State.enqueue_toCome (s : State) (r : Response) : (s.enqueue r).toCome = s.toCome := rfl
@[simp] theorem State.serve_toCome (s : State) : s.serve.toCome = s.toCome := rfl
@[simp] theorem State.resetEdge_toCome (s : State) : s.resetEdge.toCome = s.toCome := rfl

@[simp] theorem State.enqueue_nextStall (s : State) (r : Response) : (s.enqueue r).nextStall = s.nextStall := rfl
@[simp] theorem State.serve_nextStall (s : State) : s.serve.nextStall = s.nextStall := rfl
@[simp] theorem State.resetEdge_nextStall (s : State) : s.resetEdge.nextStall = s.nextStall := rfl

@[simp] theorem Entry.older_request (e : Entry) : e.older.request = e.request := rfl
@[simp] theorem Entry.older_age (e : Entry) : e.older.age = e.age + 1 := rfl
@[simp] theorem Entry.older_response (e : Entry) : e.older.response = e.response := rfl

@[simp] theorem Cycle.presenting_rst (c : Cycle) (cmd : Command) : (c.presenting cmd).rst = false := rfl
@[simp] theorem Cycle.presenting_reqValid (c : Cycle) (cmd : Command) : (c.presenting cmd).reqValid = true := rfl
@[simp] theorem Cycle.presenting_rspReady (c : Cycle) (cmd : Command) : (c.presenting cmd).rspReady = c.rspReady := rfl
@[simp] theorem Cycle.presenting_request (c : Cycle) (cmd : Command) :
    (c.presenting cmd).request = { c.request with cmd := cmd } := rfl

@[simp] theorem Cycle.idle_rst : Cycle.idle.rst = false := rfl
@[simp] theorem Cycle.idle_reqValid : Cycle.idle.reqValid = false := rfl
@[simp] theorem Cycle.idle_rspReady : Cycle.idle.rspReady = false := rfl

@[simp] theorem onNext_next (f : State → State) (s : State) : onNext f (.next s) = .next (f s) := rfl

end Sys2Proof.Machine
end

