-- ==== Sys2Proof/Laws/Ops.lean ====
section
/-! SUPPORT. What each shared operation and one step can do, said once: every meaning enqueues the response of its request,
and a step resets, or serves the queue and accepts at most one request. -/

namespace Sys2Proof.Machine

/-! ## The output ports -/

theorem State.hasRoom_iff (s : State) : s.hasRoom = true ↔ s.queue.length < s.params.maxOutstanding := by
  simp [State.hasRoom]

theorem State.reqReady_of_no_rst {s : State} (h : s.now.rst = false) :
    s.reqReady = (decide (s.stall = 0) && s.hasRoom) := by
  simp [State.reqReady, h]

theorem State.rspValid_iff (s : State) :
    s.rspValid = true ↔ ∃ e q, s.queue = e :: q ∧ s.params.latency ≤ e.age := by
  unfold State.rspValid
  split <;> simp [*]

/-- While RSP_VALID is 1 the response ports carry the response of the oldest entry. -/
theorem State.rspPorts_of_rspValid {s : State} {e : Entry} {q : List Entry} (hq : s.queue = e :: q)
    (hv : s.rspValid = true) : s.rspPorts = e.response := by
  obtain ⟨e', q', hq', hl⟩ := s.rspValid_iff.1 hv
  obtain ⟨rfl, rfl⟩ : e = e' ∧ q = q' := by simpa [hq] using hq'
  simp [State.rspPorts, hq, hl]

theorem State.accepts_iff (s : State) :
    s.accepts = true ↔ s.now.rst = false ∧ s.now.reqValid = true ∧ s.reqReady = true := by
  simp [State.accepts, and_assoc]

theorem State.consumes_iff (s : State) :
    s.consumes = true ↔ s.rspValid = true ∧ s.now.rspReady = true := by
  simp [State.consumes]

/-! ## Meanings -/

/-- Every meaning enqueues the response of the request on the ports, and does nothing else. -/
theorem exec_eq (i : Instr) (s : State) : exec i s = .next (s.enqueue (responseOf i s.now.request)) := by
  cases i <;> rfl

theorem accept_eq (s : State) : accept s = .next (s.enqueue (respond s.now.request)) := by
  unfold accept respond
  split <;> simp_all [exec_eq, State.answerIllegal, State.answer]

/-- A command completes with what its response function gives. -/
theorem completes_of_responseOf {i : Instr} {P : Request → Response → Prop} (h : ∀ q, P q (responseOf i q)) :
    Completes i P := fun s => ⟨responseOf i s.now.request, exec_eq i s, h s.now.request⟩

/-- What it takes for a command to be implemented: its words decode, and its response function does what is said. -/
theorem implements_of {opc : BitVec 6} {op : Width → Instr} {P : Width → Request → Response → Prop}
    (hd : ∀ w, decode (plainWord opc w) = .ok (op w)) (h : ∀ w q, P w q (responseOf (op w) q)) :
    Implements opc op P := fun w => ⟨hd w, completes_of_responseOf (h w)⟩

/-! ## One step -/

theorem step_of_rst {s : State} (h : s.now.rst = true) : step s = .next s.resetEdge.nextCycle := by
  simp [step, h]

theorem step_of_accepts {s : State} (h : s.accepts = true) :
    step s = .next (s.serve.enqueue (respond s.now.request)).nextCycle := by
  have h0 := (s.accepts_iff.1 h).1
  simp [step, h, h0, accept_eq]

theorem step_of_not_accepts {s : State} (h0 : s.now.rst = false) (h : s.accepts = false) :
    step s = .next s.serve.nextCycle := by
  simp [step, h, h0]

/-- Everything one step can do. -/
theorem step_cases {s t : State} (h : step s = .next t) :
    (s.now.rst = true ∧ t = s.resetEdge.nextCycle) ∨
    (s.now.rst = false ∧ s.accepts = true ∧ t = (s.serve.enqueue (respond s.now.request)).nextCycle) ∨
    (s.now.rst = false ∧ s.accepts = false ∧ t = s.serve.nextCycle) := by
  cases h0 : s.now.rst
  · cases ha : s.accepts
    · rw [step_of_not_accepts h0 ha] at h
      exact .inr (.inr ⟨rfl, rfl, by simpa using h.symm⟩)
    · rw [step_of_accepts ha] at h
      exact .inr (.inl ⟨rfl, rfl, by simpa using h.symm⟩)
  · rw [step_of_rst h0] at h
    exact .inl ⟨rfl, by simpa using h.symm⟩

/-- A step never stops. -/
theorem step_next (s : State) : ∃ t, step s = .next t := by
  cases h0 : s.now.rst
  · cases ha : s.accepts
    · exact ⟨_, step_of_not_accepts h0 ha⟩
    · exact ⟨_, step_of_accepts ha⟩
  · exact ⟨_, step_of_rst h0⟩

/-- What every step leaves of the outside: the next cycle is driven, READY_POLICY goes on, and the parameters stay. -/
theorem step_outside {s t : State} (h : step s = .next t) :
    t.params = s.params ∧ t.now = s.toCome.headD Cycle.idle ∧ t.upcoming = s.toCome.tail ∧ t.recurring = s.recurring ∧
      t.stall = s.nextStall ∧ t.freeIndex = s.freeIndex + 1 := by
  rcases step_cases h with ⟨_, rfl⟩ | ⟨_, _, rfl⟩ | ⟨_, _, rfl⟩ <;> exact ⟨rfl, rfl, rfl, rfl, rfl, rfl⟩

/-- What holds of every cycle that is driven goes on to hold, where an idle cycle has it or there are cycles that recur. -/
theorem drives_of_step {P : Cycle → Prop} {s t : State} (hd : s.Drives P) (hi : P Cycle.idle ∨ s.recurring ≠ [])
    (h : step s = .next t) : t.Drives P := by
  obtain ⟨-, hn, hu, hr, -, -⟩ := step_outside h
  obtain ⟨-, h1, h2⟩ := hd
  have hc : ∀ c ∈ s.toCome, P c := by
    unfold State.toCome
    split
    · exact h2
    · exact h1
  refine ⟨?_, fun c hm => hc c (List.mem_of_mem_tail (hu ▸ hm)), fun c hm => h2 c (hr ▸ hm)⟩
  rw [hn]
  cases hl : s.toCome with
  | cons c l => exact hc c (by simp [hl])
  | nil =>
    refine hi.resolve_right fun hne => hne ?_
    unfold State.toCome at hl
    split at hl
    · exact hl
    · contradiction

theorem noReset_of_step {s t : State} (hn : s.NoReset) (h : step s = .next t) : t.NoReset :=
  drives_of_step hn (.inl rfl) h

theorem hostNotReady_of_step {s t : State} (hn : s.HostNotReady) (h : step s = .next t) : t.HostNotReady :=
  drives_of_step hn (.inl rfl) h

theorem hostAsks_of_step {s t : State} (ha : s.HostAsks) (h : step s = .next t) : t.HostAsks :=
  ⟨(step_outside h).2.2.2.1 ▸ ha.1, drives_of_step ha.2 (.inr ha.1) h⟩

theorem hostTakes_of_step {s t : State} (ha : s.HostTakes) (h : step s = .next t) : t.HostTakes :=
  ⟨(step_outside h).2.2.2.1 ▸ ha.1, drives_of_step ha.2 (.inr ha.1) h⟩

/-- One step first, then the rest of the run. -/
theorem reaches_succ {k : Nat} {s t u : State} (h : step s = .next t) : Reaches (k + 1) s u ↔ Reaches k t u := by
  have hs : Sys2Proof.core.step s = .next t := h
  simp only [Reaches, Host.Core.run, hs]

end Sys2Proof.Machine
end

