-- ==== Sys2Proof/Laws/PerInstr.lean ====
section
/-! SUPPORT. Statements about every command as syntax, one lemma for each constructor. -/

/-- The word of a well-formed command has RSV = 0 and an OPC that the opcode map names (30_encoding.md rules R74, R75). -/
def Sys2Proof.Laws.EncodedFields.Statement (i : Sys2Proof.Instr) : Prop :=
  i.WellFormed → Sys2Proof.rsvField (Sys2Proof.encode i) = 0 ∧
    ∀ w k W S, (Sys2Proof.operationAt w k W S (Sys2Proof.opcField (Sys2Proof.encode i))).isSome = true

namespace Sys2Proof.Laws.EncodedFields

/-- The common case: a word made of fields in their ranges whose opcode the map names. -/
theorem of_commandWord {opc arity pw ps : Nat} (w : Width) (ho : opc < 64) (ha : arity < 4) (hW : pw < 128)
    (hS : ps < 128) (hop : ∀ v k W S, (operationAt v k W S opc).isSome = true) :
    rsvField (commandWord opc w arity pw ps) = 0 ∧
      ∀ v k W S, (operationAt v k W S (opcField (commandWord opc w arity pw ps))).isSome = true := by
  rw [rsvField_commandWord w ho ha hW hS, opcField_commandWord w ho ha hW hS]
  exact ⟨rfl, hop⟩

theorem maskto (w : Width) : Statement (.maskto w) := fun _ =>
  of_commandWord w (by decide) (by decide) (by decide) (by decide) fun _ _ _ _ => rfl

theorem masklo (w : Width) : Statement (.masklo w) := fun _ =>
  of_commandWord w (by decide) (by decide) (by decide) (by decide) fun _ _ _ _ => rfl

theorem revb (w : Width) : Statement (.revb w) := fun _ =>
  of_commandWord w (by decide) (by decide) (by decide) (by decide) fun _ _ _ _ => rfl

theorem ispow2 (w : Width) : Statement (.ispow2 w) := fun _ =>
  of_commandWord w (by decide) (by decide) (by decide) (by decide) fun _ _ _ _ => rfl

theorem p2ceil (w : Width) : Statement (.p2ceil w) := fun _ =>
  of_commandWord w (by decide) (by decide) (by decide) (by decide) fun _ _ _ _ => rfl

theorem nextp2 (w : Width) : Statement (.nextp2 w) := fun _ =>
  of_commandWord w (by decide) (by decide) (by decide) (by decide) fun _ _ _ _ => rfl

theorem isshmask (w : Width) : Statement (.isshmask w) := fun _ =>
  of_commandWord w (by decide) (by decide) (by decide) (by decide) fun _ _ _ _ => rfl

theorem isshu (w : Width) (W S : Nat) : Statement (.isshu w W S) := fun h => by
  have h' : W < 128 ∧ S < 128 := by simpa [Instr.WellFormed, Instr.wellFormed] using h
  exact of_commandWord w (by decide) (by decide) h'.1 h'.2 fun _ _ _ _ => rfl

theorem isshs (w : Width) (W S : Nat) : Statement (.isshs w W S) := fun h => by
  have h' : W < 128 ∧ S < 128 := by simpa [Instr.WellFormed, Instr.wellFormed] using h
  exact of_commandWord w (by decide) (by decide) h'.1 h'.2 fun _ _ _ _ => rfl

theorem isintn (w : Width) : Statement (.isintn w) := fun _ =>
  of_commandWord w (by decide) (by decide) (by decide) (by decide) fun _ _ _ _ => rfl

theorem isuintn (w : Width) : Statement (.isuintn w) := fun _ =>
  of_commandWord w (by decide) (by decide) (by decide) (by decide) fun _ _ _ _ => rfl

theorem maxintn (w : Width) : Statement (.maxintn w) := fun _ =>
  of_commandWord w (by decide) (by decide) (by decide) (by decide) fun _ _ _ _ => rfl

theorem minintn (w : Width) : Statement (.minintn w) := fun _ =>
  of_commandWord w (by decide) (by decide) (by decide) (by decide) fun _ _ _ _ => rfl

theorem maxuintn (w : Width) : Statement (.maxuintn w) := fun _ =>
  of_commandWord w (by decide) (by decide) (by decide) (by decide) fun _ _ _ _ => rfl

theorem ctlog2 (w : Width) : Statement (.ctlog2 w) := fun _ =>
  of_commandWord w (by decide) (by decide) (by decide) (by decide) fun _ _ _ _ => rfl

theorem clz (w : Width) : Statement (.clz w) := fun _ =>
  of_commandWord w (by decide) (by decide) (by decide) (by decide) fun _ _ _ _ => rfl

theorem ctz (w : Width) : Statement (.ctz w) := fun _ =>
  of_commandWord w (by decide) (by decide) (by decide) (by decide) fun _ _ _ _ => rfl

theorem shl (w : Width) : Statement (.shl w) := fun _ =>
  of_commandWord w (by decide) (by decide) (by decide) (by decide) fun _ _ _ _ => rfl

theorem shr (w : Width) : Statement (.shr w) := fun _ =>
  of_commandWord w (by decide) (by decide) (by decide) (by decide) fun _ _ _ _ => rfl

theorem minalign (w : Width) : Statement (.minalign w) := fun _ =>
  of_commandWord w (by decide) (by decide) (by decide) (by decide) fun _ _ _ _ => rfl

theorem alignto (w : Width) : Statement (.alignto w) := fun _ =>
  of_commandWord w (by decide) (by decide) (by decide) (by decide) fun _ _ _ _ => rfl

theorem alignp2 (w : Width) : Statement (.alignp2 w) := fun _ =>
  of_commandWord w (by decide) (by decide) (by decide) (by decide) fun _ _ _ _ => rfl

theorem aligndn (w : Width) : Statement (.aligndn w) := fun _ =>
  of_commandWord w (by decide) (by decide) (by decide) (by decide) fun _ _ _ _ => rfl

theorem divnear (w : Width) : Statement (.divnear w) := fun _ =>
  of_commandWord w (by decide) (by decide) (by decide) (by decide) fun _ _ _ _ => rfl

theorem divceil (w : Width) : Statement (.divceil w) := fun _ =>
  of_commandWord w (by decide) (by decide) (by decide) (by decide) fun _ _ _ _ => rfl

theorem divceils (w : Width) : Statement (.divceils w) := fun _ =>
  of_commandWord w (by decide) (by decide) (by decide) (by decide) fun _ _ _ _ => rfl

theorem divfloors (w : Width) : Statement (.divfloors w) := fun _ =>
  of_commandWord w (by decide) (by decide) (by decide) (by decide) fun _ _ _ _ => rfl

theorem divsovf (w : Width) : Statement (.divsovf w) := fun _ =>
  of_commandWord w (by decide) (by decide) (by decide) (by decide) fun _ _ _ _ => rfl

theorem mod (w : Width) : Statement (.mod w) := fun _ =>
  of_commandWord w (by decide) (by decide) (by decide) (by decide) fun _ _ _ _ => rfl

theorem satadd (w : Width) (k : Nat) : Statement (.satadd w k) := fun h => by
  have h' : 2 ≤ k ∧ k ≤ 4 := by simpa [Instr.WellFormed, Instr.wellFormed] using h
  exact of_commandWord w (by decide) (by omega) (by decide) (by decide) fun _ _ _ _ => rfl

theorem satmul (w : Width) : Statement (.satmul w) := fun _ =>
  of_commandWord w (by decide) (by decide) (by decide) (by decide) fun _ _ _ _ => rfl

theorem satmad (w : Width) : Statement (.satmad w) := fun _ =>
  of_commandWord w (by decide) (by decide) (by decide) (by decide) fun _ _ _ _ => rfl

theorem addo (w : Width) : Statement (.addo w) := fun _ =>
  of_commandWord w (by decide) (by decide) (by decide) (by decide) fun _ _ _ _ => rfl

theorem subo (w : Width) : Statement (.subo w) := fun _ =>
  of_commandWord w (by decide) (by decide) (by decide) (by decide) fun _ _ _ _ => rfl

theorem mulo (w : Width) : Statement (.mulo w) := fun _ =>
  of_commandWord w (by decide) (by decide) (by decide) (by decide) fun _ _ _ _ => rfl

end Sys2Proof.Laws.EncodedFields
end

