-- ==== Sys2Proof/Machine/Assembly.lean ====
section
/-! DEFINITION. The assembler's spellings (30_encoding.md rules R80 and R81): from a mnemonic, a width, immediates and
operands in port order to the request they stand for. It defines no hardware; the step does not use it. -/

namespace Sys2Proof.Assembly

/-- A mnemonic that takes operands only: its name, how many, and its command (R76, R80). -/
structure Row where
  mnemonic : String
  operands : Nat
  command : Width → Instr

def bitMaskRows : List Row :=
  [⟨"MASKTO", 1, .maskto⟩, ⟨"MASKLO", 1, .masklo⟩, ⟨"REVB", 1, .revb⟩, ⟨"ISPOW2", 1, .ispow2⟩,
   ⟨"P2CEIL", 1, .p2ceil⟩, ⟨"NEXTP2", 1, .nextp2⟩, ⟨"ISSHMASK", 1, .isshmask⟩, ⟨"ISINTN", 2, .isintn⟩,
   ⟨"ISUINTN", 2, .isuintn⟩, ⟨"MAXINTN", 1, .maxintn⟩, ⟨"MININTN", 1, .minintn⟩, ⟨"MAXUINTN", 1, .maxuintn⟩,
   ⟨"CTLOG2", 1, .ctlog2⟩]

def countShiftRows : List Row :=
  [⟨"CLZ", 1, .clz⟩, ⟨"CTZ", 1, .ctz⟩, ⟨"SHL", 2, .shl⟩, ⟨"SHR", 2, .shr⟩]

def alignmentRows : List Row :=
  [⟨"MINALIGN", 2, .minalign⟩, ⟨"ALIGNTO", 3, .alignto⟩, ⟨"ALIGNP2", 2, .alignp2⟩, ⟨"ALIGNDN", 2, .aligndn⟩]

def divisionRows : List Row :=
  [⟨"DIVNEAR", 2, .divnear⟩, ⟨"DIVCEIL", 2, .divceil⟩, ⟨"DIVCEILS", 2, .divceils⟩, ⟨"DIVFLOORS", 2, .divfloors⟩,
   ⟨"DIVSOVF", 2, .divsovf⟩, ⟨"MOD", 2, .mod⟩]

/-- SATADD's ARITY comes from the number of its operands (R80). -/
def overflowArithRows : List Row :=
  [⟨"SATADD", 2, (.satadd · 2)⟩, ⟨"SATADD", 3, (.satadd · 3)⟩, ⟨"SATADD", 4, (.satadd · 4)⟩, ⟨"SATMUL", 2, .satmul⟩,
   ⟨"SATMAD", 3, .satmad⟩, ⟨"ADDO", 2, .addo⟩, ⟨"SUBO", 2, .subo⟩, ⟨"MULO", 2, .mulo⟩]

/-- The pseudo-instructions (R81): ALIGNTO with two operands, whose skew port is then 0, SATADD2 to SATADD4, and ISALIGNED,
whose command is ALIGNDN and whose comparison of R with the value is the host's. -/
def pseudoRows : List Row :=
  [⟨"ALIGNTO", 2, .alignto⟩, ⟨"SATADD2", 2, (.satadd · 2)⟩, ⟨"SATADD3", 3, (.satadd · 3)⟩,
   ⟨"SATADD4", 4, (.satadd · 4)⟩, ⟨"ISALIGNED", 2, .aligndn⟩]

def rows : List Row :=
  bitMaskRows ++ countShiftRows ++ alignmentRows ++ divisionRows ++ overflowArithRows ++ pseudoRows

/-- The command a line spells: ISSHU and ISSHS take `#W, #S` first and one operand, the others no immediate (R80). -/
def commandOf (mnemonic : String) (w : Width) (immediates : List Nat) (operands : Nat) : Option Instr :=
  match immediates with
  | [] => (rows.find? fun r => r.mnemonic == mnemonic && r.operands == operands).map fun r => r.command w
  | [W, S] =>
    if operands != 1 then none
    else if mnemonic == "ISSHU" then some (.isshu w W S)
    else if mnemonic == "ISSHS" then some (.isshs w W S)
    else none
  | _ => none

/-- The request a line spells, the unnamed ports 0; a line that spells no command, or whose immediates do not fit,
assembles to nothing. -/
def assemble (mnemonic : String) (w : Width) (immediates : List Nat) (operands : List Word) :
    Option Machine.Request :=
  match commandOf mnemonic w immediates operands.length with
  | none => none
  | some i =>
    if i.wellFormed then
      some { cmd := encode i, a := operands.getD 0 0, b := operands.getD 1 0, c := operands.getD 2 0,
             d := operands.getD 3 0 }
    else none

end Sys2Proof.Assembly
end

