-- ==== Sys2Proof/Tests/Slice0.lean ====
section
/-! SUPPORT. Tests, each about one instruction word, one step or one state. The expected responses are rows of
spec/95_test_vectors.md, which the spec derives from its rules; the words are written from the field table of
spec/30_encoding.md. At the end stands, for every statement with hypotheses, a state or operands that meet them. -/

namespace Sys2Proof.Tests

open Sys2Proof.Machine

/-! ## Well-formedness: an ill-formed term for each check -/

theorem test_isshu_width_parameter_refused : ¬ (Instr.isshu .w8 128 0).WellFormed := by decide
theorem test_isshu_shift_parameter_refused : ¬ (Instr.isshu .w64 0 128).WellFormed := by decide
theorem test_isshs_width_parameter_refused : ¬ (Instr.isshs .w8 128 0).WellFormed := by decide
theorem test_isshs_shift_parameter_refused : ¬ (Instr.isshs .w32 127 128).WellFormed := by decide
theorem test_satadd_one_operand_refused : ¬ (Instr.satadd .w8 1).WellFormed := by decide
theorem test_satadd_five_operands_refused : ¬ (Instr.satadd .w16 5).WellFormed := by decide

/-! ## Decoding: words written out bit by bit -/

/-- Written as RSV, PS, PW, ARITY, WSEL, OPC (R70), with the opcodes of R75. -/
theorem test_decode_bit_mask :
    decode 0b00000000_0000000_0000000_00_00_000001 = .ok (.maskto .w8) ∧
    decode 0b00000000_0000000_0000000_00_01_000010 = .ok (.masklo .w16) ∧
    decode 0b00000000_0000000_0000000_00_10_000011 = .ok (.revb .w32) ∧
    decode 0b00000000_0000000_0000000_00_11_000100 = .ok (.ispow2 .w64) ∧
    decode 0b00000000_0000000_0000000_00_00_000101 = .ok (.p2ceil .w8) ∧
    decode 0b00000000_0000000_0000000_00_01_000110 = .ok (.nextp2 .w16) ∧
    decode 0b00000000_0000000_0000000_00_10_000111 = .ok (.isshmask .w32) ∧
    decode 0b00000000_0000010_0000100_00_10_001000 = .ok (.isshu .w32 4 2) ∧
    decode 0b00000000_1111111_1000000_00_11_001000 = .ok (.isshu .w64 64 127) ∧
    decode 0b00000000_1111111_1111111_00_00_001001 = .ok (.isshs .w8 127 127) ∧
    decode 0b00000000_0000000_0000001_00_01_001001 = .ok (.isshs .w16 1 0) ∧
    decode 0b00000000_0000000_0000000_00_11_001010 = .ok (.isintn .w64) ∧
    decode 0b00000000_0000000_0000000_00_00_001011 = .ok (.isuintn .w8) ∧
    decode 0b00000000_0000000_0000000_00_01_001100 = .ok (.maxintn .w16) ∧
    decode 0b00000000_0000000_0000000_00_10_001101 = .ok (.minintn .w32) ∧
    decode 0b00000000_0000000_0000000_00_11_001110 = .ok (.maxuintn .w64) ∧
    decode 0b00000000_0000000_0000000_00_00_001111 = .ok (.ctlog2 .w8) := by decide

/-- R140 to R143. -/
theorem test_decode_count_shift :
    decode 0b00000000_0000000_0000000_00_01_010000 = .ok (.clz .w16) ∧
    decode 0b00000000_0000000_0000000_00_10_010001 = .ok (.ctz .w32) ∧
    decode 0b00000000_0000000_0000000_00_11_010010 = .ok (.shl .w64) ∧
    decode 0b00000000_0000000_0000000_00_00_010011 = .ok (.shr .w8) := by decide

/-- R160 to R163. -/
theorem test_decode_alignment :
    decode 0b00000000_0000000_0000000_00_01_011000 = .ok (.minalign .w16) ∧
    decode 0b00000000_0000000_0000000_00_10_011001 = .ok (.alignto .w32) ∧
    decode 0b00000000_0000000_0000000_00_11_011010 = .ok (.alignp2 .w64) ∧
    decode 0b00000000_0000000_0000000_00_00_011011 = .ok (.aligndn .w8) := by decide

/-- R180 to R185. -/
theorem test_decode_division :
    decode 0b00000000_0000000_0000000_00_01_100000 = .ok (.divnear .w16) ∧
    decode 0b00000000_0000000_0000000_00_10_100001 = .ok (.divceil .w32) ∧
    decode 0b00000000_0000000_0000000_00_11_100010 = .ok (.divceils .w64) ∧
    decode 0b00000000_0000000_0000000_00_00_100011 = .ok (.divfloors .w8) ∧
    decode 0b00000000_0000000_0000000_00_01_100100 = .ok (.divsovf .w16) ∧
    decode 0b00000000_0000000_0000000_00_10_100101 = .ok (.mod .w32) := by decide

/-- R200 to R205; ARITY 0, 1 and 2 are two, three and four operands (R73). -/
theorem test_decode_overflow_arith :
    decode 0b00000000_0000000_0000000_00_00_101000 = .ok (.satadd .w8 2) ∧
    decode 0b00000000_0000000_0000000_01_01_101000 = .ok (.satadd .w16 3) ∧
    decode 0b00000000_0000000_0000000_10_11_101000 = .ok (.satadd .w64 4) ∧
    decode 0b00000000_0000000_0000000_00_11_101001 = .ok (.satmul .w64) ∧
    decode 0b00000000_0000000_0000000_00_00_101010 = .ok (.satmad .w8) ∧
    decode 0b00000000_0000000_0000000_00_01_101011 = .ok (.addo .w16) ∧
    decode 0b00000000_0000000_0000000_00_10_101100 = .ok (.subo .w32) ∧
    decode 0b00000000_0000000_0000000_00_11_101101 = .ok (.mulo .w64) := by decide

/-- R71: the four values of WSEL. -/
theorem test_decode_widths :
    decode 0b00000000_0000000_0000000_00_00_000001 = .ok (.maskto .w8) ∧
    decode 0b00000000_0000000_0000000_00_01_000001 = .ok (.maskto .w16) ∧
    decode 0b00000000_0000000_0000000_00_10_000001 = .ok (.maskto .w32) ∧
    decode 0b00000000_0000000_0000000_00_11_000001 = .ok (.maskto .w64) := by decide

/-- R301: a word of each kind that is illegal, and why the decoder refuses it (95_test_vectors.md section 2). -/
theorem test_decode_illegal :
    decode 0x00000000 = .error .reservedOpcode ∧ decode 0x00000014 = .error .reservedOpcode ∧
    decode 0x0000001F = .error .reservedOpcode ∧ decode 0x00000026 = .error .reservedOpcode ∧
    decode 0x000000FF = .error .reservedOpcode ∧ decode 0x01000029 = .error .reservedBitSet ∧
    decode 0x80000081 = .error .reservedBitSet ∧ decode 0xFFFFFFFF = .error .reservedBitSet ∧
    decode 0x0000012B = .error .arityNotZero ∧ decode 0x00000328 = .error .arityThree ∧
    decode 0x00000429 = .error .parameterNotZero ∧ decode 0x00020028 = .error .parameterNotZero := by decide

/-! ## One step for each command -/

/-- Right after reset, the word and the four operands placed on the ports. -/
def sending (cmd : Nat) (a b c d : Word) : State :=
  ({ State.reset with now := { Cycle.idle with request := ⟨0, a, b, c, d⟩ } }).withFetchWord 32 cmd

/-- The state after one edge. -/
def after (s : State) : Option State :=
  match step s with
  | .next t => some t
  | .fault _ => none
  | .refused _ => none

/-- The response with which one edge answers the word, accepted after reset. -/
def answerTo (cmd : Nat) (a b c d : Word) : Option Response :=
  match after (sending cmd a b c d) with
  | none => none
  | some t => t.queue.head?.map Entry.response

/-- An illegal word reads no operand (R301; 95_test_vectors.md section 2). -/
theorem test_illegal_word_answered :
    answerTo 0x0000012B 0xFFFFFFFFFFFFFFFF 0xFFFFFFFFFFFFFFFF 0xFFFFFFFFFFFFFFFF 0xFFFFFFFFFFFFFFFF =
      some ⟨0, false, false, true⟩ := by decide

theorem test_maskto_eleven_ones :
    answerTo 0x00000081 0xB 0x0 0x0 0x0 = some ⟨0x7FF, false, false, false⟩ := by decide

theorem test_maskto_count_above_width :
    answerTo 0x000000C1 0xFFFFFFFFFFFFFFFF 0x0 0x0 0x0 = some ⟨0xFFFFFFFFFFFFFFFF, false, true, false⟩ := by decide

theorem test_masklo_three_leading :
    answerTo 0x00000002 0x3 0x0 0x0 0x0 = some ⟨0xE0, false, false, false⟩ := by decide

theorem test_masklo_count_above_width :
    answerTo 0x00000042 0x11 0x0 0x0 0x0 = some ⟨0xFFFF, false, true, false⟩ := by decide

theorem test_revb_reverses_16 :
    answerTo 0x00000043 0x1234 0x0 0x0 0x0 = some ⟨0x2C48, false, false, false⟩ := by decide

theorem test_revb_ignores_high_bits :
    answerTo 0x00000003 0x100 0x0 0x0 0x0 = some ⟨0x0, false, false, false⟩ := by decide

theorem test_ispow2_zero_is_none :
    answerTo 0x00000084 0x0 0x0 0x0 0x0 = some ⟨0x0, false, false, false⟩ := by decide

theorem test_ispow2_top_bit :
    answerTo 0x00000004 0x80 0x0 0x0 0x0 = some ⟨0x1, false, false, false⟩ := by decide

theorem test_p2ceil_exact_power :
    answerTo 0x00000005 0x80 0x0 0x0 0x0 = some ⟨0x80, false, false, false⟩ := by decide

theorem test_p2ceil_overflow_gives_zero :
    answerTo 0x00000005 0x81 0x0 0x0 0x0 = some ⟨0x0, true, false, false⟩ := by decide

theorem test_nextp2_strictly_above :
    answerTo 0x00000086 0x8 0x0 0x0 0x0 = some ⟨0x10, false, false, false⟩ := by decide

theorem test_nextp2_overflow_gives_zero :
    answerTo 0x00000006 0x80 0x0 0x0 0x0 = some ⟨0x0, true, false, false⟩ := by decide

theorem test_isshmask_start_and_length :
    answerTo 0x00000047 0xFF0 0x0 0x0 0x0 = some ⟨0x80401, false, false, false⟩ := by decide

theorem test_isshmask_full_width_run :
    answerTo 0x000000C7 0xFFFFFFFFFFFFFFFF 0x0 0x0 0x0 = some ⟨0x400001, false, false, false⟩ := by decide

theorem test_isshu_in_window :
    answerTo 0x00041088 0x3C 0x0 0x0 0x0 = some ⟨0x1, false, false, false⟩ := by decide

theorem test_isshu_low_bit_set :
    answerTo 0x00041088 0x3E 0x0 0x0 0x0 = some ⟨0x0, false, false, false⟩ := by decide

theorem test_isshs_one_bit_signed :
    answerTo 0x000E0409 0x80 0x0 0x0 0x0 = some ⟨0x1, false, false, false⟩ := by decide

theorem test_isshs_zero_bits_admit_zero_only :
    answerTo 0x00000009 0xFF 0x0 0x0 0x0 = some ⟨0x0, false, false, false⟩ := by decide

theorem test_isintn_least_four_bit :
    answerTo 0x0000000A 0x4 0xF8 0x0 0x0 = some ⟨0x1, false, false, false⟩ := by decide

theorem test_isintn_count_above_width :
    answerTo 0x0000000A 0x9 0x80 0x0 0x0 = some ⟨0x1, false, true, false⟩ := by decide

theorem test_isuintn_sixteen_needs_five_bits :
    answerTo 0x0000000B 0x4 0x10 0x0 0x0 = some ⟨0x0, false, false, false⟩ := by decide

theorem test_isuintn_count_above_width :
    answerTo 0x0000000B 0x41 0x0 0x0 0x0 = some ⟨0x1, false, true, false⟩ := by decide

theorem test_maxintn_eight_bits :
    answerTo 0x0000004C 0x8 0x0 0x0 0x0 = some ⟨0x7F, false, false, false⟩ := by decide

theorem test_maxintn_count_above_width :
    answerTo 0x0000000C 0x9 0x0 0x0 0x0 = some ⟨0x7F, false, true, false⟩ := by decide

theorem test_minintn_no_bits :
    answerTo 0x0000008D 0x0 0x0 0x0 0x0 = some ⟨0x0, false, false, false⟩ := by decide

theorem test_minintn_count_above_width :
    answerTo 0x0000008D 0x28 0x0 0x0 0x0 = some ⟨0xFFFFFFFF80000000, false, true, false⟩ := by decide

theorem test_maxuintn_full_width :
    answerTo 0x000000CE 0x40 0x0 0x0 0x0 = some ⟨0xFFFFFFFFFFFFFFFF, false, false, false⟩ := by decide

theorem test_maxuintn_count_above_width :
    answerTo 0x0000000E 0x64 0x0 0x0 0x0 = some ⟨0xFF, false, true, false⟩ := by decide

theorem test_ctlog2_of_1024 :
    answerTo 0x0000008F 0x400 0x0 0x0 0x0 = some ⟨0xA, false, false, false⟩ := by decide

theorem test_ctlog2_not_a_power :
    answerTo 0x0000008F 0x3E8 0x0 0x0 0x0 = some ⟨0x9, false, true, false⟩ := by decide

theorem test_clz_counts_within_width :
    answerTo 0x00000050 0xF0 0x0 0x0 0x0 = some ⟨0x8, false, false, false⟩ := by decide

theorem test_clz_zero_gives_width :
    answerTo 0x00000010 0x100 0x0 0x0 0x0 = some ⟨0x8, false, false, false⟩ := by decide

theorem test_ctz_of_16 :
    answerTo 0x00000091 0x10 0x0 0x0 0x0 = some ⟨0x4, false, false, false⟩ := by decide

theorem test_ctz_zero_gives_width :
    answerTo 0x000000D1 0x0 0x0 0x0 0x0 = some ⟨0x40, false, false, false⟩ := by decide

theorem test_shl_drops_bits_above_width :
    answerTo 0x00000012 0xFF 0x4 0x0 0x0 = some ⟨0xF0, false, false, false⟩ := by decide

theorem test_shl_amount_of_width_or_more :
    answerTo 0x00000012 0x1 0xFFFFFFFFFFFFFFFF 0x0 0x0 = some ⟨0x0, false, false, false⟩ := by decide

theorem test_shr_top_bit_down :
    answerTo 0x00000053 0x8000 0xF 0x0 0x0 = some ⟨0x1, false, false, false⟩ := by decide

theorem test_shr_amount_is_64_bits_wide :
    answerTo 0x00000093 0xFFFFFFFF 0x100000000 0x0 0x0 = some ⟨0x0, false, false, false⟩ := by decide

theorem test_minalign_common_power :
    answerTo 0x00000098 0x8 0xC 0x0 0x0 = some ⟨0x4, false, false, false⟩ := by decide

theorem test_minalign_zero_first :
    answerTo 0x00000098 0x0 0xC 0x0 0x0 = some ⟨0x4, false, false, false⟩ := by decide

theorem test_alignto_skew_reduced :
    answerTo 0x00000099 0x0 0x8 0x9 0x0 = some ⟨0x1, false, false, false⟩ := by decide

theorem test_alignto_sentinel :
    answerTo 0x000000D9 0xFFFFFFFFFFFFFFFF 0x8 0x0 0x0 = some ⟨0x0, true, false, false⟩ := by decide

theorem test_alignp2_promoted_carry :
    answerTo 0x0000001A 0xFF 0x10 0x0 0x0 = some ⟨0x100, true, false, false⟩ := by decide

theorem test_alignp2_no_room_in_64 :
    answerTo 0x000000DA 0xFFFFFFFFFFFFFFFF 0x8 0x0 0x0 = some ⟨0x0, true, false, false⟩ := by decide

theorem test_aligndn_multiple_of_three :
    answerTo 0x0000009B 0x7 0x3 0x0 0x0 = some ⟨0x6, false, false, false⟩ := by decide

theorem test_aligndn_align_zero :
    answerTo 0x0000009B 0x5 0x0 0x0 0x0 = some ⟨0x5, false, true, false⟩ := by decide

theorem test_divnear_tie_up :
    answerTo 0x000000A0 0x6 0x4 0x0 0x0 = some ⟨0x2, false, false, false⟩ := by decide

theorem test_divnear_sum_not_wrapped :
    answerTo 0x000000E0 0xFFFFFFFFFFFFFFFF 0x2 0x0 0x0 = some ⟨0x8000000000000000, false, false, false⟩ := by decide

theorem test_divceil_rounds_up :
    answerTo 0x000000E1 0xFFFFFFFFFFFFFFFF 0x2 0x0 0x0 = some ⟨0x8000000000000000, false, false, false⟩ := by decide

theorem test_divceil_zero_divisor :
    answerTo 0x00000021 0x5 0x0 0x0 0x0 = some ⟨0x0, false, true, false⟩ := by decide

theorem test_divceils_toward_plus_infinity :
    answerTo 0x000000A2 0xE 0xFFFFFFFFFFFFFFFD 0x0 0x0 = some ⟨0xFFFFFFFFFFFFFFFC, false, false, false⟩ := by decide

theorem test_divceils_overflow :
    answerTo 0x00000062 0x8000 0xFFFF 0x0 0x0 = some ⟨0xFFFFFFFFFFFF8000, true, false, false⟩ := by decide

theorem test_divfloors_toward_minus_infinity :
    answerTo 0x000000A3 0xFFFFFFFFFFFFFFF2 0x3 0x0 0x0 = some ⟨0xFFFFFFFFFFFFFFFB, false, false, false⟩ := by decide

theorem test_divfloors_overflow :
    answerTo 0x00000023 0x80 0xFF 0x0 0x0 = some ⟨0xFFFFFFFFFFFFFF80, true, false, false⟩ := by decide

theorem test_divsovf_least_by_minus_one :
    answerTo 0x000000A4 0x80000000 0xFFFFFFFFFFFFFFFF 0x0 0x0 = some ⟨0x1, false, false, false⟩ := by decide

theorem test_divsovf_width_decides :
    answerTo 0x00000064 0x80 0xFF 0x0 0x0 = some ⟨0x0, false, false, false⟩ := by decide

theorem test_mod_non_negative :
    answerTo 0x000000A5 0xFFFFFFFFFFFFFFFF 0xE 0x0 0x0 = some ⟨0xD, false, false, false⟩ := by decide

theorem test_mod_negative_divisor :
    answerTo 0x00000025 0xE 0xFFFFFFFFFFFFFFFD 0x0 0x0 = some ⟨0x2, false, true, false⟩ := by decide

theorem test_satadd_whole_sum_fits :
    answerTo 0x00000128 0x64 0x64 0x37 0x0 = some ⟨0xFF, false, false, false⟩ := by decide

theorem test_satadd_four_operands :
    answerTo 0x00000228 0x40 0x40 0x40 0x40 = some ⟨0xFF, true, false, false⟩ := by decide

theorem test_satmul_exact_maximum :
    answerTo 0x00000029 0x55 0x3 0x0 0x0 = some ⟨0xFF, false, false, false⟩ := by decide

theorem test_satmul_saturates :
    answerTo 0x00000029 0x56 0x3 0x0 0x0 = some ⟨0xFF, true, false, false⟩ := by decide

theorem test_satmad_exact_maximum :
    answerTo 0x0000002A 0xA 0xA 0x9B 0x0 = some ⟨0xFF, false, false, false⟩ := by decide

theorem test_satmad_product_stage :
    answerTo 0x0000002A 0x10 0x10 0x0 0x0 = some ⟨0xFF, true, false, false⟩ := by decide

theorem test_addo_wraps :
    answerTo 0x0000002B 0x7F 0x7F 0x0 0x0 = some ⟨0xFFFFFFFFFFFFFFFE, true, false, false⟩ := by decide

theorem test_addo_opposite_signs :
    answerTo 0x0000006B 0x7FFF 0x8000 0x0 0x0 = some ⟨0xFFFFFFFFFFFFFFFF, false, false, false⟩ := by decide

theorem test_subo_of_least :
    answerTo 0x0000002C 0x0 0x80 0x0 0x0 = some ⟨0xFFFFFFFFFFFFFF80, true, false, false⟩ := by decide

theorem test_subo_fits :
    answerTo 0x0000002C 0xFFFFFFFFFFFFFFFF 0x7F 0x0 0x0 = some ⟨0xFFFFFFFFFFFFFF80, false, false, false⟩ := by decide

theorem test_mulo_wraps :
    answerTo 0x0000002D 0xB 0xFFFFFFFFFFFFFFF4 0x0 0x0 = some ⟨0x7C, true, false, false⟩ := by decide

theorem test_mulo_exact_least :
    answerTo 0x0000006D 0xFFFFFFFFFFFFFF00 0x80 0x0 0x0 = some ⟨0xFFFFFFFFFFFF8000, false, false, false⟩ := by decide

/-! ## The interface: LATENCY 2 and MAX_OUTSTANDING 2 -/

/-- `ADDO.8 0x7F, 1` (R80, R203). -/
def addRequest : Request := ⟨0x0000002B, 0x7F, 1, 0, 0⟩

/-- An entry for it, with the response of R203. -/
def addEntry (age : Nat) : Entry := ⟨addRequest, age, ⟨0xFFFFFFFFFFFFFF80, true, false, false⟩⟩

/-- A state whose queue holds such entries of the ages given. -/
def holding (ages : List Nat) (now : Cycle) (upcoming : List Cycle) : State :=
  { params := { latencyLessOne := 1, maxOutstandingLessOne := 1 }
    queue := ages.map addEntry
    now := now
    upcoming := upcoming
    recurring := []
    stall := 0
    freeIndex := 0 }

/-- The host drives a request. -/
def asking : Cycle := { Cycle.idle with reqValid := true, request := addRequest }

/-- The host takes a response. -/
def taking : Cycle := { Cycle.idle with rspReady := true }

/-- The host does both. -/
def both : Cycle := { asking with rspReady := true }

/-- The host resets while it drives a request. -/
def resetting : Cycle := { asking with rst := true }

/-- A host that asks and takes responses without end, while READY_POLICY stalls for three cycles more. -/
def tireless (ages : List Nat) : State := { holding ages both [both] with recurring := [both], stall := 3 }

/-- R34: REQ_READY is 0 while Q is full. -/
theorem test_full_queue_is_not_ready : (holding [1, 0] asking []).reqReady = false := by decide

/-- R34: a valid request with REQ_READY = 1 enters Q. -/
theorem test_request_enters : (after (holding [0] asking [])).map State.queue = some [addEntry 1, addEntry 0] := by
  decide

/-- R34: a request held while REQ_READY is 0 has no effect. -/
theorem test_stalled_request_waits :
    (after { holding [0] asking [] with stall := 1 }).map State.queue = some [addEntry 1] := by
  decide

/-- R404: a stall of one cycle is over in the next, and the request that waited stands there with REQ_READY = 1. -/
theorem test_stall_ends :
    (after { holding [0] asking [asking] with stall := 1 }).map (fun t => (t.stall, t.reqReady, t.accepts)) =
      some (0, true, true) := by decide

/-- R36: one edge short of LATENCY the response is not valid; at LATENCY it is, and stands on the ports. -/
theorem test_valid_at_latency : (holding [1] taking []).rspValid = false ∧ (holding [2] taking []).rspValid = true ∧
    (holding [2] taking []).rspPorts = ⟨0xFFFFFFFFFFFFFF80, true, false, false⟩ := by decide

/-- R36: the edge at which RSP_READY is 1 removes the oldest entry. -/
theorem test_response_leaves : (after (holding [2, 1] taking [])).map State.queue = some [addEntry 2] := by decide

/-- R43: without RSP_READY it stays. -/
theorem test_response_stays : (after (holding [2] Cycle.idle [])).map State.queue = some [addEntry 3] := by decide

/-- R34, R36: one edge can take a response and accept a request. -/
theorem test_leave_and_enter : (after (holding [2] both [])).map State.queue = some [addEntry 0] := by decide

/-- R400: a reset edge empties Q and accepts nothing. -/
theorem test_reset_edge : (after (holding [2, 0] resetting [taking])).map State.queue = some [] := by decide

/-- Log entry 3: after the last cycle listed, what recurs is driven, and it is listed again after its own end. -/
theorem test_cycles_recur :
    (after { holding [] asking [] with recurring := [taking, asking] }).map (fun t => (t.now, t.upcoming)) =
        some (taking, [asking]) ∧
    (after { holding [] asking [] with recurring := [taking] }).map (fun t => (t.upcoming, t.recurring)) =
        some ([], [taking]) := by decide

/-- R406: the next cycle takes what is driven in it. -/
theorem test_next_cycle : (after (holding [] Cycle.idle [taking, asking])).map State.now = some taking := by decide

/-! ## The assembler and the host notation (30_encoding.md R80 to R82) -/

/-- The three examples of R80. -/
theorem test_assemble_examples :
    Assembly.assemble "ADDO" .w8 [] [5, 6] = some ⟨0x0000002B, 5, 6, 0, 0⟩ ∧
    Assembly.assemble "ISSHU" .w32 [4, 2] [7] = some ⟨0x00041088, 7, 0, 0, 0⟩ ∧
    Assembly.assemble "SATADD" .w16 [] [1, 2, 3] = some ⟨0x00000168, 1, 2, 3, 0⟩ := by decide

/-- The pseudo-instructions of R81. -/
theorem test_assemble_pseudo :
    Assembly.commandOf "ALIGNTO" .w32 [] 2 = some (.alignto .w32) ∧
    Assembly.commandOf "SATADD4" .w8 [] 4 = some (.satadd .w8 4) ∧
    Assembly.commandOf "ISALIGNED" .w8 [] 2 = some (.aligndn .w8) := by decide

/-- An immediate that does not fit its field assembles to nothing. -/
theorem test_assemble_refuses : Assembly.assemble "ISSHU" .w32 [128, 0] [7] = none := by decide

/-- The host of 95_test_vectors.md section 8, run 1a, before its first line: h1 = 0x25, h2 = 0xC. -/
def caller : HostProgram.Caller :=
  { registers := #v[0, 0x25, 0xC, 0, 0, 0, 0, 0, 0, 0, 0, 0, 0, 0, 0, 0]
    ov := false, inv := false, ill := false, words := [], line := 0, halted := false }

/-- `h3 <- SATMUL.64 h1, h2` gives h3 = 0x1BC without OV. -/
theorem test_host_issues :
    (HostProgram.runLine [.issue 3 (.satmul .w64) [1, 2]] caller).map (fun h => (h.registers.get 3, h.ov, h.line)) =
      some (0x1BC, false, 1) := by decide

/-- `mem[h2] <- h1` writes the word at index 0xC. -/
theorem test_host_stores :
    (HostProgram.runLine [.storeWord 2 1] caller).map HostProgram.Caller.words = some [(0xC, 0x25)] := by decide

/-! ## Every statement with hypotheses: a state and operands that meet them all

Where a statement has clauses over one operand, there is one for each clause, at the edge of its range. -/

/-- DecodeOfEncodeIsTheCommand: the largest and the smallest immediates. -/
theorem witness_well_formed : (Instr.isshu .w8 127 0).WellFormed ∧ (Instr.isshs .w64 0 127).WellFormed ∧
    (Instr.satadd .w8 2).WellFormed ∧ (Instr.satadd .w8 4).WellFormed ∧ (Instr.mulo .w64).WellFormed := by decide

/-- EncodeOfDecodeIsTheWord. -/
theorem witness_legal_word : decode 0x00FFFC09 = .ok (.isshs .w8 127 127) := by decide

/-- IllegalWordsAndTheirResponse: an accepted illegal word. -/
theorem witness_illegal_word_accepted : (sending 0x0000012B 0 0 0 0).accepts = true ∧
    decode (sending 0x0000012B 0 0 0 0).now.request.cmd = .error .arityNotZero := by decide

/-- StepRunsTheDecodedCommand: a queue with room for one request more; and a table word. -/
theorem witness_step_runs : (holding [0] asking []).now.rst = false ∧ (holding [0] asking []).now.reqValid = true ∧
    (holding [0] asking []).stall = 0 ∧
    (holding [0] asking []).queue.length < (holding [0] asking []).params.maxOutstanding ∧
    decode (holding [0] asking []).now.request.cmd = .ok (.addo .w8) ∧
    decodeTableWord 32 0x0000002B = some (.addo .w8) := by decide

/-- AcceptanceOfARequest: a full queue, one with room, a request accepted and one not. -/
theorem witness_acceptance : (holding [1, 0] asking []).now.rst = false ∧
    (holding [1, 0] asking []).queue.length = (holding [1, 0] asking []).params.maxOutstanding ∧
    (holding [0] asking []).queue.length < (holding [0] asking []).params.maxOutstanding ∧
    ((holding [0] asking []).now.reqValid = true ∧ (holding [0] asking []).reqReady = true) ∧
    ¬ ((holding [1, 0] asking []).now.reqValid = true ∧ (holding [1, 0] asking []).reqReady = true) := by decide

/-- ResponseIsAFunctionOfTheRequest, AtMostOneFlag, PortsAreSampledOnlyAtAcceptance (second clause): an accepting step. -/
theorem witness_accepting_step : (holding [0] asking []).accepts = true ∧ ∃ t, step (holding [0] asking []) = .next t :=
  ⟨by decide, step_next _⟩

/-- ResponseIsAFunctionOfTheRequest: a request with an illegal word, and one with a legal word. -/
theorem witness_requests : decode ({ addRequest with cmd := 0 }).cmd = .error .reservedOpcode ∧
    decode addRequest.cmd = .ok (.addo .w8) := by decide

/-- HistoryIndependence: two states that differ in queue, parameters and inputs accept one request. -/
theorem witness_two_histories : (holding [0] asking []).accepts = true ∧
    ({ State.reset with now := both }).accepts = true ∧
    (holding [0] asking []).now.request = ({ State.reset with now := both }).now.request ∧
    (∃ t, step (holding [0] asking []) = .next t) ∧ ∃ t, step { State.reset with now := both } = .next t :=
  ⟨by decide, by decide, rfl, step_next _, step_next _⟩

/-- ResponsesInAcceptanceOrder. -/
theorem witness_no_reset : (tireless [2, 0]).NoReset := ⟨rfl, by decide, by decide⟩

/-- ResponseValidAfterLatency: right after acceptance, and LATENCY edges later. -/
theorem witness_empty_queue_accepts : (holding [] asking []).NoReset ∧ (holding [] asking []).queue = [] ∧
    (holding [] asking []).accepts = true ∧ 0 ≤ (holding [] asking []).params.latency ∧
    2 = (holding [] asking []).params.latency := ⟨⟨rfl, by decide, by decide⟩, rfl, by decide, by decide, rfl⟩

/-- OldestEntryIsDelivered: an entry one edge old needs one edge more and then the one that takes it. -/
theorem witness_oldest_entry : (holding [1, 0] taking [taking]).queue = addEntry 1 :: [addEntry 0] ∧
    (holding [1, 0] taking [taking]).NoReset ∧ (holding [1, 0] taking [taking]).now.rspReady = true ∧
    (∀ c ∈ (holding [1, 0] taking [taking]).upcoming, c.rspReady = true) ∧
    (holding [1, 0] taking [taking]).params.latency - (addEntry 1).age ≤
      (holding [1, 0] taking [taking]).upcoming.length :=
  ⟨rfl, ⟨rfl, by decide, by decide⟩, rfl, by decide, by decide⟩

/-- ResponseWaitsUnchanged. -/
theorem witness_waiting_response : (holding [2] Cycle.idle [asking]).NoReset ∧
    (holding [2] Cycle.idle [asking]).HostNotReady ∧ (holding [2] Cycle.idle [asking]).rspValid = true :=
  ⟨⟨rfl, by decide, by decide⟩, ⟨rfl, by decide, by decide⟩, by decide⟩

/-- ReadinessReturns, first and second clause: room for one request. -/
theorem witness_stalled_with_room : (tireless [0]).queue.length < (tireless [0]).params.maxOutstanding ∧
    (tireless [0]).NoReset ∧ (tireless [0]).HostAsks := ⟨by decide, ⟨rfl, by decide, by decide⟩, by decide, rfl, by decide, by decide⟩

/-- ReadinessReturns, third clause: the queue is full. -/
theorem witness_stalled_and_full : ¬ (tireless [1, 0]).queue.length < (tireless [1, 0]).params.maxOutstanding ∧
    (tireless [1, 0]).NoReset ∧ (tireless [1, 0]).HostAsks ∧ (tireless [1, 0]).HostTakes :=
  ⟨by decide, ⟨rfl, by decide, by decide⟩, ⟨by decide, rfl, by decide, by decide⟩, by decide, rfl, by decide, by decide⟩

/-- ResetEdgeEmptiesTheQueue, ResetDiscardsWhatIsInFlight. -/
theorem witness_reset_edge : (holding [2, 0] resetting [asking, taking]).now.rst = true ∧
    (∀ c ∈ (holding [2, 0] resetting [asking, taking]).upcoming, c.rst = false) ∧
    (∀ c ∈ (holding [2, 0] resetting [asking, taking]).recurring, c.rst = false) ∧
    ∃ u, step (holding [2, 0] resetting [asking, taking]) = .next u := ⟨rfl, by decide, by decide, step_next _⟩

/-- EveryStepKeepsTheInvariant: a full queue that meets it. -/
theorem witness_invariant : (holding [2, 0] both []).Inv ∧ ∃ t, step (holding [2, 0] both []) = .next t :=
  ⟨⟨by decide, by decide, by decide⟩, step_next _⟩

/-- NoCommandStopsOrDisturbs: an edge without reset. -/
theorem witness_edge_without_reset : (holding [2, 0] both []).now.rst = false := rfl

/-- PortsAreSampledOnlyAtAcceptance, first clause: the queue is full, so the edge accepts nothing. -/
theorem witness_nothing_accepted : (holding [1, 0] asking []).accepts = false := by decide

/-- OnlyTheNamedOperandsMatter: requests that differ above bit 7 and on the ports ADDO does not read. -/
theorem witness_agree : AgreeOnWhatIsRead (.addo .w8) ⟨0x2B, 0x17F, 1, 2, 3⟩ ⟨0x2B, 0x7F, 0xF01, 4, 5⟩ := by
  unfold AgreeOnWhatIsRead; decide

/-- RevbReversesTheBits: a request that carries the result of another. -/
theorem witness_reversed_again : (⟨0, 0x80, 0, 0, 0⟩ : Request).a = (responseOf (.revb .w8) ⟨0, 1, 0, 0, 0⟩).r := by
  decide

/-- P2ceilIsTheLeastPowerAtOrAbove: x = 0, x = 1, x = 2^(w−1), x = 2^(w−1) + 1. -/
theorem witness_p2ceil : unsignedValue .w8 0x100 = 0 ∧
    (unsignedValue .w8 1 ≠ 0 ∧ unsignedValue .w8 1 ≤ 2 ^ (Width.w8.bits - 1)) ∧
    (unsignedValue .w8 0x80 ≠ 0 ∧ unsignedValue .w8 0x80 ≤ 2 ^ (Width.w8.bits - 1)) ∧
    2 ^ (Width.w8.bits - 1) < unsignedValue .w8 0x81 := by decide

/-- Nextp2IsTheLeastPowerAbove: x = 2^(w−1) − 1 and x = 2^(w−1). -/
theorem witness_nextp2 : unsignedValue .w8 0x7F < 2 ^ (Width.w8.bits - 1) ∧
    2 ^ (Width.w8.bits - 1) ≤ unsignedValue .w8 0x80 := by decide

/-- IsshmaskFindsTheRun: one bit at the top, all bits, and no run. -/
theorem witness_isshmask : (1 ≤ 1 ∧ unsignedValue .w8 0x80 = (2 ^ 1 - 1) * 2 ^ 7) ∧
    (1 ≤ 64 ∧ unsignedValue .w64 0xFFFFFFFFFFFFFFFF = (2 ^ 64 - 1) * 2 ^ 0) ∧
    ¬ ∃ t L, 1 ≤ L ∧ unsignedValue .w8 0 = (2 ^ L - 1) * 2 ^ t := by
  refine ⟨by decide, by decide, ?_⟩
  rintro ⟨t, L, hL, h⟩
  have h1 := Nat.two_pow_pos t
  have h2 : 2 ^ 1 ≤ 2 ^ L := Nat.pow_le_pow_right (by decide) hL
  have h3 : 0 < (2 ^ L - 1) * 2 ^ t := Nat.mul_pos (by omega) h1
  have h4 : unsignedValue .w8 0 = 0 := by decide
  omega

/-- IsshsTestsTheSignedWindow: W = 0 and W = 127. -/
theorem witness_isshs : (0 : BitVec 7) = 0 ∧ (127 : BitVec 7) ≠ 0 := by decide

/-- RangeTestsGiveTheMathematicalAnswer, SignedExtremesOfNBits: n = 0, n = w and n = w + 1. -/
theorem witness_bit_counts : (0 : Word).toNat = 0 ∧ (8 : Word).toNat ≠ 0 ∧ ¬ Width.w8.bits < (8 : Word).toNat ∧
    Width.w8.bits < (9 : Word).toNat := by decide

/-- Ctlog2IsTheLogarithm, ClzCountsLeadingZeros, CtzCountsTrailingZeros: x = 0 and x = 1. -/
theorem witness_zero_and_one : unsignedValue .w8 0x100 = 0 ∧ unsignedValue .w8 1 ≠ 0 := by decide

/-- MaskRoundTrip: n = 0 and n = w. -/
theorem witness_mask_counts : ((0 : Word).toNat ≤ Width.w8.bits ∧ (0 : Word).toNat = 0) ∧
    ((8 : Word).toNat ≤ Width.w8.bits ∧ (8 : Word).toNat = Width.w8.bits) := by decide

/-- PowerOfTwoProperties: a ceiling that does not overflow, and one that does. -/
theorem witness_ceiling : ((⟨0, 8, 0, 0, 0⟩ : Request).a = (responseOf (.p2ceil .w8) ⟨0, 7, 0, 0, 0⟩).r ∧
      unsignedValue .w8 7 ≠ 0 ∧ (responseOf (.p2ceil .w8) ⟨0, 7, 0, 0, 0⟩).ov = false) ∧
    (⟨0, 0, 0, 0, 0⟩ : Request).a = (responseOf (.p2ceil .w8) ⟨0, 0x81, 0, 0, 0⟩).r := by decide

/-- CtzCountsTrailingZeros, second clause: a shifted mask. -/
theorem witness_shifted_mask : (responseOf (.isshmask .w16) ⟨0, 0xFF0, 0, 0, 0⟩).r.getLsbD 0 = true := by decide

/-- ShiftsWithinTheWidth: the amounts w and w − 1. -/
theorem witness_shift_amounts : Width.w8.bits ≤ (8 : Word).toNat ∧ (7 : Word).toNat < Width.w8.bits := by decide

/-- MasksAreShiftsOfAllOnes: n = 0 and n = w. -/
theorem witness_all_ones : ((0 : Word).toNat ≤ Width.w8.bits ∧ unsignedValue .w8 0xFF = 2 ^ Width.w8.bits - 1 ∧
      (8 : Word).toNat = Width.w8.bits - (0 : Word).toNat) ∧
    ((8 : Word).toNat ≤ Width.w8.bits ∧ (0 : Word).toNat = Width.w8.bits - (8 : Word).toNat) := by decide

/-- MinalignIsTheGreatestCommonPower: (0, 0) and (0, 12). -/
theorem witness_minalign : (unsignedValue .w8 0 = 0 ∧ unsignedValue .w8 0x100 = 0) ∧
    ¬ (unsignedValue .w8 0 = 0 ∧ unsignedValue .w8 12 = 0) := by decide

/-- AligntoIsTheLeastCongruentValue, AligndnIsTheGreatestMultiple, DivnearIsTheNearestQuotient, DivceilIsTheCeiling: the second
operand 0 and 1. -/
theorem witness_second_operand : unsignedValue .w8 0x100 = 0 ∧ unsignedValue .w8 1 ≠ 0 := by decide

/-- Alignp2RoundsUpAndKeepsTheCarry: align 0 and 12 are no power of two, 2^(w−1) is one. -/
theorem witness_alignp2 : (¬ ∃ k, unsignedValue .w8 0 = 2 ^ k) ∧ (¬ ∃ k, unsignedValue .w8 12 = 2 ^ k) ∧
    ∃ k, unsignedValue .w8 0x80 = 2 ^ k := by
  refine ⟨?_, ?_, 7, by decide⟩ <;> rw [← ispow2_iff] <;> decide

/-- AlignmentIdempotence: a value that is rounded up, and one whose rounding overflows. -/
theorem witness_rounded_again : (unsignedValue .w8 0x10 ≠ 0 ∧ unsignedValue .w8 0 = 0 ∧
      (⟨0, 0x20, 0x10, 0, 0⟩ : Request).a = (responseOf (.alignto .w8) ⟨0, 0x11, 0x10, 0, 0⟩).r) ∧
    (⟨0, 0, 0x10, 0, 0⟩ : Request).a = (responseOf (.alignto .w8) ⟨0, 0xFF, 0x10, 0, 0⟩).r := by decide

/-- AligntoAndAlignp2Agree: a power-of-two align with a rounded value that fits, with one that does not, and another align. -/
theorem witness_two_alignments : (∃ k, unsignedValue .w8 0x10 = 2 ^ k) ∧
    (¬ NoAlignedValueFits .w8 (unsignedValue .w8 0xF0) (unsignedValue .w8 0x10) 0) ∧
    NoAlignedValueFits .w8 (unsignedValue .w8 0xF1) (unsignedValue .w8 0x10) 0 ∧
    unsignedValue .w8 12 ≠ 0 ∧ ¬ ∃ k, unsignedValue .w8 12 = 2 ^ k := by
  refine ⟨⟨4, by decide⟩, ?_, ?_, by decide, by rw [← ispow2_iff]; decide⟩
  · rw [noAlignedValueFits_iff _ _ _ (by decide)]; decide
  · rw [noAlignedValueFits_iff _ _ _ (by decide)]; decide

/-- SignedDivisionsRoundExactly: b = 0, the pair that overflows, and (SMIN, 1). -/
theorem witness_signed_division : signedValue .w8 0x100 = 0 ∧
    (signedValue .w8 0xFF ≠ 0 ∧ signedValue .w8 0x80 = -2 ^ (Width.w8.bits - 1) ∧ signedValue .w8 0xFF = -1) ∧
    signedValue .w8 1 ≠ 0 ∧ ¬ (signedValue .w8 0x80 = -2 ^ (Width.w8.bits - 1) ∧ signedValue .w8 1 = -1) := by
  decide

/-- ModIsTheNonNegativeResidue: b = 0, b = −1 and b = 1. -/
theorem witness_mod : signedValue .w8 0x100 = 0 ∧ signedValue .w8 0xFF ≠ 0 ∧ 0 < signedValue .w8 1 := by decide

/-- DivisionConsistency: a = 0 and b = 1, the least operands. -/
theorem witness_consistency : 0 ≤ signedValue .w8 0 ∧ 0 < signedValue .w8 1 := by decide

/-- SataddSaturatesTheWholeSum: the pairwise sums of 0x80, 0x7F, 1 and 0. -/
theorem witness_fold : (⟨0, 0xFF, 1, 0, 0⟩ : Request).a = (responseOf (.satadd .w8 2) ⟨0, 0x80, 0x7F, 1, 0⟩).r ∧
    (⟨0, 0xFF, 0, 0, 0⟩ : Request).a = (responseOf (.satadd .w8 2) ⟨0, 0xFF, 1, 0, 0⟩).r := by decide

/-- SaturationInvariantAndMonotonicity: a sum that overflows and one that does not. -/
theorem witness_saturation : (responseOf (.satadd .w8 2) ⟨0, 0xC8, 0x38, 0, 0⟩).ov = true ∧
    (responseOf (.satadd .w8 2) ⟨0, 0xC8, 0x37, 0, 0⟩).ov = false := by decide

/-- SatmulBitLengthClasses: 8 × 15 has i + j = 6 = w − 2, and 16 × 16 has i + j = 8 = w. -/
theorem witness_bit_lengths : (2 ^ 3 ≤ unsignedValue .w8 8 ∧ unsignedValue .w8 8 < 2 ^ (3 + 1) ∧
      2 ^ 3 ≤ unsignedValue .w8 15 ∧ unsignedValue .w8 15 < 2 ^ (3 + 1) ∧ 3 + 3 ≤ Width.w8.bits - 2) ∧
    (2 ^ 4 ≤ unsignedValue .w8 16 ∧ unsignedValue .w8 16 < 2 ^ (4 + 1) ∧ Width.w8.bits ≤ 4 + 4) := by decide

end Sys2Proof.Tests
end

section
/-! PROOFS. A response is a function of what its command reads (00_scope.md R12, R17; 30_encoding.md R76). -/

namespace Sys2Proof.Machine

/-! ## Ports that agree in their low w bits read as the same value -/

section Operands

variable {w : Width} {p p' : Word}

theorem readU_congr (h : p.setWidth w.bits = p'.setWidth w.bits) : readU w p = readU w p' := by
  rw [readU_eq, readU_eq, unsignedValue, h]

theorem readS_congr (h : p.setWidth w.bits = p'.setWidth w.bits) : readS w p = readS w p' := by
  rw [readS_eq, readS_eq, signedValue, h]

end Operands

/-! ## Requests that agree on what a command reads get the same response -/

/-- SATADD reads C and D only where its operand count names them (R73, R200). -/
theorem respSatadd_congr {w : Width} {k : Nat} {q q' : Request} (h : AgreeOnWhatIsRead (.satadd w k) q q') :
    respSatadd w k q = respSatadd w k q' := by
  obtain ⟨ha, hb, hc, hd⟩ := h
  have hc' : (if 3 ≤ k then readU w q.c else 0) = if 3 ≤ k then readU w q'.c else 0 :=
    ite_congr rfl (fun hk => readU_congr (hc hk)) fun _ => rfl
  have hd' : (if k = 4 then readU w q.d else 0) = if k = 4 then readU w q'.d else 0 :=
    ite_congr rfl (fun hk => readU_congr (hd hk)) fun _ => rfl
  rw [respSatadd, respSatadd, readU_congr ha, readU_congr hb, hc', hd']

/-- The cases are the rows of the table of R76: each response function looks at its ports through the reads named there. -/
theorem responseOf_congr {i : Instr} {q q' : Request} (h : AgreeOnWhatIsRead i q q') :
    responseOf i q = responseOf i q' := by
  cases i with
  | maskto w | masklo w | maxintn w | minintn w | maxuintn w =>
    have ha : q.a = q'.a := h
    simp only [responseOf, respMaskto, respMasklo, respMaxintn, respMinintn, respMaxuintn, ha]
  | revb w | ispow2 w | p2ceil w | nextp2 w | isshmask w | ctlog2 w | clz w | ctz w | isshu w W S =>
    have ha := readU_congr h
    simp only [responseOf, respRevb, respIspow2, respP2ceil, respNextp2, respIsshmask, respCtlog2, respClz, respCtz,
      respIsshu, ha]
  | isshs w W S =>
    have ha := readS_congr h
    simp only [responseOf, respIsshs, ha]
  | isintn w | isuintn w =>
    obtain ⟨ha, hb⟩ := h
    simp only [responseOf, respIsintn, respIsuintn, ha, readU_congr hb, readS_congr hb]
  | shl w | shr w =>
    obtain ⟨ha, hb⟩ := h
    simp only [responseOf, respShl, respShr, readU_congr ha, hb]
  | minalign w | alignp2 w | aligndn w | divnear w | divceil w | satmul w =>
    obtain ⟨ha, hb⟩ := h
    simp only [responseOf, respMinalign, respAlignp2, respAligndn, respDivnear, respDivceil, respSatmul,
      readU_congr ha, readU_congr hb]
  | divceils w | divfloors w | divsovf w | mod w | addo w | subo w | mulo w =>
    obtain ⟨ha, hb⟩ := h
    simp only [responseOf, respDivceils, respDivfloors, respDivsovf, respMod, respAddo, respSubo, respMulo,
      readS_congr ha, readS_congr hb]
  | alignto w | satmad w =>
    obtain ⟨ha, hb, hc⟩ := h
    simp only [responseOf, respAlignto, respSatmad, readU_congr ha, readU_congr hb, readU_congr hc]
  | satadd w k => exact respSatadd_congr h

/-- Settles O23: both states enqueue the response of their own request, and the two responses are the same. -/
theorem onlyTheNamedOperandsMatter : Obligations.OnlyTheNamedOperandsMatter := by
  intro i s s' h
  refine ⟨responseOf i s.now.request, exec_eq i s, ?_⟩
  rw [responseOf_congr h]
  exact exec_eq i s'

end Sys2Proof.Machine
end

section
/-! PROOFS. The queue and its two handshakes: what an edge accepts and delivers, how an entry ages, and what every edge
keeps (10_state.md R34 to R36, R42 to R46; 70_reset_and_hazards.md R402, R404, R408). -/

namespace Sys2Proof.Machine

/-! ## Readiness and room -/

/-- Where Q has room, READY_POLICY alone decides REQ_READY (R34). -/
theorem reqReady_of_room {s : State} (h0 : s.now.rst = false) (hroom : s.queue.length < s.params.maxOutstanding) :
    s.reqReady = decide (s.stall = 0) := by
  rw [State.reqReady_of_no_rst h0, s.hasRoom_iff.2 hroom, Bool.and_true]

/-- An edge that accepts finds room in the queue (R34). -/
theorem room_of_accepts {s : State} (ha : s.accepts = true) : s.queue.length < s.params.maxOutstanding := by
  obtain ⟨h0, -, hr⟩ := s.accepts_iff.1 ha
  rw [State.reqReady_of_no_rst h0, Bool.and_eq_true] at hr
  exact s.hasRoom_iff.1 hr.2

/-! ## The queue after an edge -/

/-- The entry of a request just accepted (R34, R42; log entries 5 and 6). -/
def Entry.fresh (q : Request) : Entry := { request := q, age := 0, response := respond q }

@[simp] theorem Entry.fresh_request (q : Request) : (Entry.fresh q).request = q := rfl
@[simp] theorem Entry.fresh_age (q : Request) : (Entry.fresh q).age = 0 := rfl
@[simp] theorem Entry.fresh_response (q : Request) : (Entry.fresh q).response = respond q := rfl

/-- An edge without reset serves the queue and appends a fresh entry for what it accepts. -/
theorem queue_of_step {s t : State} (h0 : s.now.rst = false) (h : step s = .next t) :
    t.queue = s.serve.queue ++ s.accepted.map Entry.fresh := by
  rcases step_cases h with ⟨hr, -⟩ | ⟨-, ha, rfl⟩ | ⟨-, ha, rfl⟩
  · simp [h0] at hr
  · simp [State.accepted, ha, Entry.fresh]
  · simp [State.accepted, ha]

theorem queue_of_step_accepts {s t : State} (ha : s.accepts = true) (h : step s = .next t) :
    t.queue = s.serve.queue ++ [Entry.fresh s.now.request] := by
  have h0 := (s.accepts_iff.1 ha).1
  simpa [State.accepted, ha] using queue_of_step h0 h

/-- An oldest entry that is not consumed stays the oldest and grows older. -/
theorem front_of_step {s t : State} {e : Entry} {q : List Entry} (hq : s.queue = e :: q) (h0 : s.now.rst = false)
    (hc : s.consumes = false) (h : step s = .next t) : ∃ q', t.queue = e.older :: q' := by
  rw [queue_of_step h0 h]
  simp [hc, hq]

/-- At an edge that accepts nothing the request on the ports has no effect (R34, R406). -/
theorem step_requesting_of_not_accepts {s : State} (ha : s.accepts = false) (q : Request) :
    step { s with now := { s.now with request := q } } = step s := by
  cases h0 : s.now.rst
  · rw [step_of_not_accepts h0 ha]
    exact step_of_not_accepts (s := { s with now := { s.now with request := q } }) h0 ha
  · rw [step_of_rst h0]
    exact step_of_rst (s := { s with now := { s.now with request := q } }) h0

/-! ## The response ports and the oldest entry -/

theorem rspValid_of_front {s : State} {e : Entry} {q : List Entry} (hq : s.queue = e :: q) :
    s.rspValid = decide (s.params.latency ≤ e.age) := by
  simp [State.rspValid, hq]

/-- An entry younger than LATENCY is not consumed. -/
theorem not_consumes_of_young {s : State} {e : Entry} {q : List Entry} (hq : s.queue = e :: q)
    (hy : e.age < s.params.latency) : s.consumes = false := by
  simp [State.consumes, rspValid_of_front hq, hy]

theorem now_rst_of_noReset {s : State} (hn : s.NoReset) : s.now.rst = false := hn.1

theorem not_consumes_of_hostNotReady {s : State} (hn : s.HostNotReady) : s.consumes = false := by
  have hr : s.now.rspReady = false := hn.1
  simp [State.consumes, hr]

/-! ## The invariant -/

theorem inv_of_queue_nil {s : State} (hq : s.queue = []) : s.Inv where
  capacity := by simp [hq]
  answered := by simp [hq]
  ordered := by simp [hq]

/-- The invariant speaks of the queue and of MAX_OUTSTANDING alone. -/
theorem State.Inv.nextCycle {s : State} (hi : s.Inv) : s.nextCycle.Inv := ⟨hi.capacity, hi.answered, hi.ordered⟩

/-- Serving takes a first entry at most, and all that stay grow older by the same. -/
theorem State.Inv.serve {s : State} (hi : s.Inv) : s.serve.Inv := by
  have hs : (if s.consumes then s.queue.tail else s.queue).Sublist s.queue := by
    split
    · exact List.tail_sublist _
    · exact List.Sublist.refl _
  constructor
  case capacity => simpa using hs.length_le.trans hi.capacity
  case answered =>
    intro e he
    obtain ⟨e', he', rfl⟩ := List.mem_map.1 he
    exact hi.answered e' (hs.subset he')
  case ordered =>
    rw [State.serve_queue, List.pairwise_map]
    exact (hi.ordered.sublist hs).imp fun h => Nat.succ_lt_succ h

/-- Every entry that stays through an edge is older than the one the edge appends. -/
theorem age_pos_of_mem_serve {s : State} {e : Entry} (he : e ∈ s.serve.queue) : 0 < e.age := by
  obtain ⟨e', -, rfl⟩ := List.mem_map.1 he
  exact Nat.succ_pos _

theorem serve_length_le (s : State) : s.serve.queue.length ≤ s.queue.length := by
  simp only [State.serve_queue, List.length_map]
  split <;> simp

theorem State.Inv.enqueue_serve {s : State} (hi : s.Inv) (hroom : s.queue.length < s.params.maxOutstanding) :
    (s.serve.enqueue (respond s.now.request)).Inv := by
  constructor
  case capacity =>
    have := serve_length_le s
    simp only [State.enqueue_queue, State.enqueue_params, State.serve_params, List.length_append, List.length_singleton]
    omega
  case answered =>
    intro e he
    rcases List.mem_append.1 he with he | he
    · exact hi.serve.answered e he
    · rw [List.mem_singleton.1 he]; rfl
  case ordered =>
    refine List.pairwise_append.2 ⟨hi.serve.ordered, List.pairwise_singleton _ _, fun e he f hf => ?_⟩
    rw [List.mem_singleton.1 hf]
    exact age_pos_of_mem_serve he

/-- Settles O17: a reset edge empties the queue, and every other edge serves it and appends at most one entry, where there
is room. -/
theorem everyStepKeepsTheInvariant : Obligations.EveryStepKeepsTheInvariant := by
  intro s t hi h
  rcases step_cases h with ⟨-, rfl⟩ | ⟨-, ha, rfl⟩ | ⟨-, -, rfl⟩
  · exact inv_of_queue_nil rfl
  · exact (hi.enqueue_serve (room_of_accepts ha)).nextCycle
  · exact hi.serve.nextCycle

/-- Settles O16: the reset state has an empty queue, and the rest follows. -/
theorem resetStateMeetsTheInvariant : Obligations.ResetStateMeetsTheInvariant :=
  ⟨rfl, rfl, inv_of_queue_nil rfl⟩

/-! ## Acceptance -/

/-- Settles O6: REQ_READY is READY_POLICY where there is room, and the step appends what it accepts to the
served queue. -/
theorem acceptanceOfARequest : Obligations.AcceptanceOfARequest := by
  intro s h0
  refine ⟨fun hfull => ?_, reqReady_of_room h0, ?_⟩
  · simp [State.reqReady_of_no_rst h0, State.hasRoom, hfull]
  obtain ⟨t, ht⟩ := step_next s
  obtain ⟨hparams, -⟩ := step_outside ht
  refine ⟨t, ht, hparams, fun ⟨hv, hr⟩ => ?_, fun hno => ?_⟩
  · exact ⟨_, queue_of_step_accepts (s.accepts_iff.2 ⟨h0, hv, hr⟩) ht⟩
  · have ha : s.accepts = false := Bool.eq_false_iff.2 fun ha => hno (s.accepts_iff.1 ha).2
    exact ⟨by simpa [State.accepted, ha] using queue_of_step h0 ht,
      fun q => (step_requesting_of_not_accepts ha q).trans ht⟩

/-- An edge that accepts a legal word runs its command on the served queue (R35, R77; log entry 7). -/
theorem step_of_decode {s : State} {i : Instr} (ha : s.accepts = true) (hd : decode s.now.request.cmd = .ok i) :
    step s = onNext State.nextCycle (exec i s.serve) := by
  have h0 := (s.accepts_iff.1 ha).1
  simp [step, h0, ha, accept, hd]

theorem decode_of_decodeTableWord {nbits word : Nat} {i : Instr} (h : decodeTableWord nbits word = some i) :
    decode (BitVec.ofNat 32 (word % 2 ^ nbits)) = .ok i := by
  unfold decodeTableWord at h
  split at h <;> simp_all

/-- The next edge accepts what `presenting` puts on the ports: no reset, no stall, and room. -/
theorem presenting_accepts (s : State) (cmd : Command) : (s.presenting cmd).accepts = true := by
  have hroom : (s.presenting cmd).hasRoom = true :=
    (State.hasRoom_iff _).2 (Nat.lt_succ_of_le (List.length_take_le _ _))
  simp [State.accepts_iff, State.reqReady, hroom]

/-- Settles O5: an edge under these conditions accepts, and accepting runs the decoded command. -/
theorem stepRunsTheDecodedCommand : Obligations.StepRunsTheDecodedCommand := by
  refine ⟨fun s i h0 hv hstall hroom hd => ?_, fun s nbits word i hd => ?_⟩
  · have hr : s.reqReady = true := by rw [reqReady_of_room h0 hroom, hstall, decide_eq_true rfl]
    exact step_of_decode (s.accepts_iff.2 ⟨h0, hv, hr⟩) hd
  · have hcmd := decode_of_decodeTableWord hd
    exact step_of_decode (presenting_accepts s (BitVec.ofNat 32 (word % 2 ^ nbits))) hcmd

/-! ## The response of an accepted request -/

theorem respond_of_decode_ok {q : Request} {i : Instr} (hd : decode q.cmd = .ok i) : respond q = responseOf i q := by
  simp [respond, hd]

theorem respond_of_decode_error {q : Request} {e : Illegal} (hd : decode q.cmd = .error e) :
    respond q = illegalResponse := by
  simp [respond, hd]

/-- Settles O7: the function is `respond`. -/
theorem responseIsAFunctionOfTheRequest : Obligations.ResponseIsAFunctionOfTheRequest := by
  refine ⟨respond, fun q e => respond_of_decode_error, fun i => ?_, fun s ha => ?_⟩
  · exact completes_of_responseOf fun q hd => (respond_of_decode_ok hd).symm
  · exact ⟨_, step_of_accepts ha, rfl⟩

/-- Settles O8: each edge appends the fresh entry of its own request, which names nothing else of the state. -/
theorem historyIndependence : Obligations.HistoryIndependence := by
  intro s s' t t' ha ha' hreq h h'
  refine ⟨Entry.fresh s.now.request, Entry.fresh s'.now.request, ?_, ?_, rfl, hreq.symm, congrArg respond hreq⟩
  · simp [queue_of_step_accepts ha h]
  · simp [queue_of_step_accepts ha' h']

/-! ## Waiting for a response -/

/-- While the oldest entry is younger than LATENCY it stays the oldest, one edge older with each edge (R36, R42). -/
theorem front_ages (j : Nat) : ∀ {s : State} {e : Entry} {q : List Entry}, s.NoReset → s.queue = e :: q →
    e.age + j ≤ s.params.latency →
    ∃ t q', Reaches j s t ∧ t.params = s.params ∧ t.queue = { e with age := e.age + j } :: q' := by
  induction j with
  | zero => exact fun {s e q} _ hq _ => ⟨s, q, rfl, rfl, hq⟩
  | succ j ih =>
    intro s e q hn hq hj
    obtain ⟨t, ht⟩ := step_next s
    obtain ⟨hparams, -⟩ := step_outside ht
    obtain ⟨q', hq'⟩ := front_of_step hq (now_rst_of_noReset hn) (not_consumes_of_young hq (by omega)) ht
    obtain ⟨u, q'', hu, hup, huq⟩ := ih (noReset_of_step hn ht) hq' (by rw [hparams, Entry.older_age]; omega)
    refine ⟨u, q'', (reaches_succ ht).2 hu, hup.trans hparams, ?_⟩
    rw [huq, Entry.older, Nat.add_right_comm, Nat.add_assoc]

/-- Settles O10: the accepting edge leaves the fresh entry alone in the queue, and from there it ages. -/
theorem responseValidAfterLatency : Obligations.ResponseValidAfterLatency := by
  intro s hn hempty ha j hj
  obtain ⟨u, hu⟩ := step_next s
  obtain ⟨hparams, -⟩ := step_outside hu
  have huq : u.queue = [Entry.fresh s.now.request] := by simp [queue_of_step_accepts ha hu, hempty]
  obtain ⟨t, q', ht, htp, htq⟩ := front_ages j (noReset_of_step hn hu) huq (by simpa [hparams] using hj)
  have hvalid : t.rspValid = true ↔ j = s.params.latency := by
    simp only [rspValid_of_front htq, htp, hparams, decide_eq_true_iff, Entry.fresh_age]
    omega
  exact ⟨t, (reaches_succ hu).2 ht, hvalid, fun hl => State.rspPorts_of_rspValid htq (hvalid.2 hl)⟩

theorem history_succ {k : Nat} {s t u : State} {requests : List Request} {responses : List Response}
    (h : step s = .next t) (hk : history k t = some (requests, responses, u)) :
    history (k + 1) s = some (s.accepted ++ requests, s.delivered ++ responses, u) := by
  simp [history, h, hk]

/-- Until the list of what is driven runs out, the next cycle comes from it. -/
theorem upcoming_of_step {s t : State} {c : Cycle} {cs : List Cycle} (hs : s.upcoming = c :: cs)
    (h : step s = .next t) : t.now = c ∧ t.upcoming = cs := by
  obtain ⟨-, hnow, hup, -⟩ := step_outside h
  have hc : s.toCome = c :: cs := by simp [State.toCome, hs]
  simp [hnow, hup, hc]

/-- A ready host takes the oldest response at the edge `n` edges on, where `n` is what its age lacks of LATENCY, and
nothing before. -/
theorem history_until_delivery (n : Nat) : ∀ {s : State} {e : Entry} {q : List Entry}, s.queue = e :: q →
    s.NoReset → s.now.rspReady = true → (∀ c ∈ s.upcoming, c.rspReady = true) → s.params.latency - e.age = n →
    n ≤ s.upcoming.length → ∃ requests t, history (n + 1) s = some (requests, [e.response], t) := by
  induction n with
  | zero =>
    intro s e q hq _ hready _ hage _
    obtain ⟨t, ht⟩ := step_next s
    have hv : s.rspValid = true := by rw [rspValid_of_front hq, decide_eq_true_iff]; omega
    have hd : s.delivered = [e.response] := by
      rw [State.delivered, if_pos (s.consumes_iff.2 ⟨hv, hready⟩), State.rspPorts_of_rspValid hq hv]
    exact ⟨s.accepted, t, by simpa [hd] using history_succ (k := 0) ht rfl⟩
  | succ n ih =>
    intro s e q hq hn hready hup hage hlen
    obtain ⟨t, ht⟩ := step_next s
    have hc : s.consumes = false := not_consumes_of_young hq (by omega)
    have hd : s.delivered = [] := by simp [State.delivered, hc]
    obtain ⟨q', hq'⟩ := front_of_step hq (now_rst_of_noReset hn) hc ht
    obtain ⟨hparams, -⟩ := step_outside ht
    obtain ⟨c, cs, hcs⟩ := List.exists_cons_of_length_pos (Nat.lt_of_lt_of_le n.succ_pos hlen)
    obtain ⟨hnow, hrest⟩ := upcoming_of_step hcs ht
    simp only [hcs, List.forall_mem_cons, List.length_cons] at hup hlen
    obtain ⟨requests, u, hu⟩ := ih hq' (noReset_of_step hn ht) (hnow ▸ hup.1) (hrest ▸ hup.2)
      (by rw [hparams, Entry.older_age]; omega) (by rw [hrest]; omega)
    exact ⟨_, u, by rw [history_succ ht hu, hd, List.nil_append, Entry.older_response]⟩

/-- Settles O11, for the number of edges the age of the oldest entry lacks of LATENCY. -/
theorem oldestEntryIsDelivered : Obligations.OldestEntryIsDelivered :=
  fun _ _ _ hq hn hready hup hlen => history_until_delivery _ hq hn hready hup rfl hlen

/-- One edge of waiting: a valid response that is not taken stays on the ports. -/
theorem rsp_unchanged_of_step {s t : State} (h0 : s.now.rst = false) (hc : s.consumes = false)
    (hv : s.rspValid = true) (h : step s = .next t) : t.rspValid = true ∧ t.rspPorts = s.rspPorts := by
  obtain ⟨e, q, hq, hage⟩ := s.rspValid_iff.1 hv
  obtain ⟨q', hq'⟩ := front_of_step hq h0 hc h
  obtain ⟨hparams, -⟩ := step_outside h
  have hv' : t.rspValid = true := by
    rw [rspValid_of_front hq', hparams, decide_eq_true_iff]
    exact Nat.le_succ_of_le hage
  exact ⟨hv', by rw [State.rspPorts_of_rspValid hq' hv', State.rspPorts_of_rspValid hq hv, Entry.older_response]⟩

/-- Settles O12, by induction on the number of edges. -/
theorem responseWaitsUnchanged : Obligations.ResponseWaitsUnchanged := by
  intro k
  induction k with
  | zero => exact fun s _ _ hv => ⟨s, rfl, hv, rfl⟩
  | succ k ih =>
    intro s hn hw hv
    obtain ⟨t, ht⟩ := step_next s
    obtain ⟨hv', hports⟩ :=
      rsp_unchanged_of_step (now_rst_of_noReset hn) (not_consumes_of_hostNotReady hw) hv ht
    obtain ⟨u, hu, huv, hup⟩ := ih t (noReset_of_step hn ht) (hostNotReady_of_step hw ht) hv'
    exact ⟨u, (reaches_succ ht).2 hu, huv, hup.trans hports⟩

end Sys2Proof.Machine
end

section
/-! PROOFS. The ledger of responses: what is delivered and what is owed, edge by edge (10_state.md R36; 00_scope.md R56). -/

namespace Sys2Proof.Machine

/-- A consumed entry's response is the one delivered, and serving keeps all other responses in place (R36). -/
theorem delivered_append_serve (s : State) :
    s.delivered ++ s.serve.queue.map Entry.response = s.queue.map Entry.response := by
  have holder : Entry.response ∘ Entry.older = Entry.response := rfl
  cases hc : s.consumes with
  | false => simp [State.delivered, hc, holder]
  | true =>
    have hv := (s.consumes_iff.1 hc).1
    obtain ⟨e, q, hq, -⟩ := s.rspValid_iff.1 hv
    simp [State.delivered, hc, hq, holder, State.rspPorts_of_rspValid hq hv]

/-- One edge of the ledger: what it delivers and what Q then holds are what Q held and what it accepts. -/
theorem ledger_of_step {s t : State} (h0 : s.now.rst = false) (h : step s = .next t) :
    s.queue.map Entry.response ++ s.accepted.map respond = s.delivered ++ t.queue.map Entry.response := by
  have hfresh : Entry.response ∘ Entry.fresh = respond := rfl
  rw [queue_of_step h0 h, List.map_append, List.map_map, hfresh, ← List.append_assoc, delivered_append_serve]

/-- Settles O9, by induction on the number of edges: each edge keeps the ledger. -/
theorem responsesInAcceptanceOrder : Obligations.ResponsesInAcceptanceOrder := by
  intro k
  induction k with
  | zero => exact fun s _ => ⟨[], [], s, rfl, by simp⟩
  | succ k ih =>
    intro s hn
    obtain ⟨t, ht⟩ := step_next s
    obtain ⟨requests, responses, u, hu, hledger⟩ := ih t (noReset_of_step hn ht)
    refine ⟨_, _, u, history_succ ht hu, ?_⟩
    rw [List.map_append, ← List.append_assoc, ledger_of_step (now_rst_of_noReset hn) ht, List.append_assoc, hledger,
      List.append_assoc]

end Sys2Proof.Machine
end

section
/-! PROOFS. Decoder and encoder are inverse to each other on legal words and well-formed commands (30_encoding.md R70 to R78). -/

namespace Sys2Proof

/-- The field values, RSV apart, with which a word is legal and means `i`: OPC names `i`, and ARITY, PW and PS pass the
tests of R77. -/
structure FieldsOf (i : Instr) (opc : Nat) (w : Width) (arity pw ps : Nat) : Prop where
  opc_lt : opc < 64
  arity_lt : arity < 4
  pw_lt : pw < 128
  ps_lt : ps < 128
  operation : operationAt w (arity + 2) pw ps opc = some i
  arity_zero : opc ≠ 0x28 → arity = 0
  arity_ne_three : opc = 0x28 → arity ≠ 3
  parameters_zero : opc ≠ 0x08 ∧ opc ≠ 0x09 → pw = 0 ∧ ps = 0

section
variable {i : Instr} {cmd : Command} {opc arity pw ps : Nat} {w : Width}

/-! ## The decoder -/

theorem commandField_lt (cmd : Command) (lo len : Nat) : commandField cmd lo len < 2 ^ len :=
  Nat.mod_lt _ (Nat.two_pow_pos len)

/-- The tests of R77, read backwards: what a word that passes them all holds. -/
theorem decode_eq_ok_iff : decode cmd = .ok i ↔ rsvField cmd = 0 ∧
    FieldsOf i (opcField cmd) (widthOfWsel (wselField cmd)) (arityField cmd) (pwField cmd) (psField cmd) := by
  have hparam : commandField cmd 10 14 = 0 ↔ pwField cmd = 0 ∧ psField cmd = 0 := by
    rw [parameterField_eq]; omega
  constructor
  · intro h
    unfold decode at h
    by_cases hrsv : rsvField cmd = 0
    · rw [if_neg (not_not.2 hrsv)] at h
      split at h
      next => cases h
      next hop =>
        split_ifs at h with harity hthree hpar
        cases h
        exact ⟨hrsv, commandField_lt _ _ _, commandField_lt _ _ _, commandField_lt _ _ _,
          commandField_lt _ _ _, hop, fun ho => not_not.1 fun ha => harity ⟨ho, ha⟩,
          fun ho ha => hthree ⟨ho, ha⟩, fun ho => hparam.1 (not_not.1 fun hp => hpar ⟨ho, hp⟩)⟩
    · rw [if_pos hrsv] at h
      cases h
  · rintro ⟨hrsv, h⟩
    unfold decode
    rw [if_neg (not_not.2 hrsv), h.operation]
    simp only
    rw [if_neg fun ⟨ho, ha⟩ => ha (h.arity_zero ho), if_neg fun ⟨ho, ha⟩ => h.arity_ne_three ho ha,
      if_neg fun ⟨ho, hp⟩ => hp (hparam.2 (h.parameters_zero ho))]

/-- The decoder reads off the fields a word was made from. -/
theorem FieldsOf.decode_commandWord (h : FieldsOf i opc w arity pw ps) :
    decode (commandWord opc w arity pw ps) = .ok i := by
  have ⟨ho, ha, hW, hS, _, _, _, _⟩ := h
  rw [decode_eq_ok_iff, rsvField_commandWord w ho ha hW hS, opcField_commandWord w ho ha hW hS,
    wselField_commandWord w ho ha hW hS, arityField_commandWord w ho ha hW hS, pwField_commandWord w ho ha hW hS,
    psField_commandWord w ho ha hW hS, widthOfWsel_wselOf]
  exact ⟨rfl, h⟩

/-! ## The encoder -/

/-- ARITY, PW and PS may be 0 on every operation (R72, R73). -/
theorem fieldsOf_zero (ho : opc < 64) (hop : operationAt w 2 0 0 opc = some i) : FieldsOf i opc w 0 0 0 :=
  ⟨ho, by decide, by decide, by decide, hop, fun _ => rfl, fun _ => by decide, fun _ => ⟨rfl, rfl⟩⟩

/-- The encoder agrees with the opcode map, row by row (R75). -/
theorem encode_of_operationAt (h : operationAt w 2 0 0 opc = some i) :
    i.WellFormed ∧ encode i = commandWord opc w 0 0 0 := by
  unfold operationAt at h
  split at h <;> cases h <;> exact ⟨rfl, rfl⟩

/-- The encoder writes the fields of the command, which three operations alone may have other than 0. -/
theorem FieldsOf.encode_eq (h : FieldsOf i opc w arity pw ps) :
    i.WellFormed ∧ encode i = commandWord opc w arity pw ps := by
  obtain ⟨-, ha, hW, hS, hop, hzero, hthree, hpar⟩ := h
  by_cases hsat : opc = 0x28
  · obtain ⟨rfl, rfl⟩ := hpar (by omega)
    subst hsat
    cases hop
    exact ⟨decide_eq_true ⟨by omega, by have := hthree rfl; omega⟩, rfl⟩
  · obtain rfl := hzero hsat
    by_cases hiss : opc = 0x08 ∨ opc = 0x09
    · rcases hiss with rfl | rfl <;> cases hop <;> exact ⟨decide_eq_true ⟨hW, hS⟩, rfl⟩
    · obtain ⟨rfl, rfl⟩ := hpar (not_or.1 hiss)
      exact encode_of_operationAt hop

theorem wselOf_widthOfWsel {n : Nat} (h : n < 4) : wselOf (widthOfWsel n) = n := by
  interval_cases n <;> rfl

/-- A word with RSV = 0 is the one made from its five other fields (R70). -/
theorem commandWord_fields (h : rsvField cmd = 0) :
    commandWord (opcField cmd) (widthOfWsel (wselField cmd)) (arityField cmd) (pwField cmd) (psField cmd) = cmd := by
  apply BitVec.eq_of_toNat_eq
  rw [commandWord_toNat _ (commandField_lt _ _ _) (commandField_lt _ _ _) (commandField_lt _ _ _)
    (commandField_lt _ _ _), wselOf_widthOfWsel (commandField_lt _ _ _), toNat_eq_fields cmd, h, Nat.zero_mul,
    Nat.add_zero]

end

/-! ## The two round trips -/

/-- Settles O1: the command's fields pass the decoder's tests. ISSHU, ISSHS and SATADD carry fields of their own; every other
command leaves ARITY, PW and PS at 0. -/
theorem decodeOfEncodeIsTheCommand : Obligations.DecodeOfEncodeIsTheCommand := by
  intro i hi
  cases i with
  | isshu w W S | isshs w W S =>
    obtain ⟨hW, hS⟩ : W < 128 ∧ S < 128 := of_decide_eq_true hi
    exact FieldsOf.decode_commandWord
      ⟨by decide, by decide, hW, hS, rfl, fun _ => rfl, fun _ => by decide, fun ho => absurd ho (by decide)⟩
  | satadd w k =>
    obtain ⟨h2, h4⟩ : 2 ≤ k ∧ k ≤ 4 := of_decide_eq_true hi
    have hop : operationAt w (k - 2 + 2) 0 0 0x28 = some (.satadd w k) := by rw [Nat.sub_add_cancel h2]; rfl
    exact FieldsOf.decode_commandWord
      ⟨by decide, by omega, by decide, by decide, hop, fun ho => absurd rfl ho, fun _ => by omega, fun _ => ⟨rfl, rfl⟩⟩
  | _ => exact (fieldsOf_zero (by decide) rfl).decode_commandWord

/-- Settles O2: the encoder writes the fields the decoder read, and a legal word has no others. -/
theorem encodeOfDecodeIsTheWord : Obligations.EncodeOfDecodeIsTheWord := by
  intro cmd i h
  obtain ⟨hrsv, hfields⟩ := decode_eq_ok_iff.1 h
  obtain ⟨hwf, hencode⟩ := hfields.encode_eq
  exact ⟨hwf, hencode.trans (commandWord_fields hrsv)⟩

/-- Settles O4: the decoder evaluated at each of the thirteen words. -/
theorem wordsOfTheSpecDecode : Obligations.WordsOfTheSpecDecode := by
  unfold Obligations.WordsOfTheSpecDecode
  decide

end Sys2Proof
end

section
/-! PROOFS. What the statements of the operations share: the word of given fields decodes by the opcode map (30_encoding.md
R70, R75), and a response sets no flag beyond the one it is made with (10_state.md R35). -/

namespace Sys2Proof.Machine

/-! ## Words -/

/-- The word of given fields, RSV being 0, is the one the encoder makes of them (R70). -/
theorem fieldsWord_eq_commandWord (ps pw : BitVec 7) (arity : BitVec 2) (w : Width) (opc : BitVec 6) :
    fieldsWord 0 ps pw arity (wselBits w) opc = commandWord opc.toNat w arity.toNat pw.toNat ps.toNat := by
  have hwsel : (wselBits w).toNat = wselOf w := by cases w <;> rfl
  apply BitVec.eq_of_toNat_eq
  rw [commandWord_toNat w opc.isLt arity.isLt pw.isLt ps.isLt, fieldsWord]
  simp only [append_toNat, hwsel, BitVec.ofNat_eq_ofNat, BitVec.toNat_ofNat]
  omega

/-- At every width the word of a command without immediates decodes to what the opcode map names (R75). -/
theorem decode_plainWord {opc : BitVec 6} {w : Width} {i : Instr} (h : operationAt w 2 0 0 opc.toNat = some i) :
    decode (plainWord opc w) = .ok i := by
  rw [plainWord, fieldsWord_eq_commandWord]
  exact (fieldsOf_zero opc.isLt h).decode_commandWord

/-- A row of the opcode map whose response function does what is said is implemented. -/
theorem implements_of_operationAt {opc : BitVec 6} {op : Width → Instr} {P : Width → Request → Response → Prop}
    (hop : ∀ w, operationAt w 2 0 0 opc.toNat = some (op w)) (h : ∀ w q, P w q (responseOf (op w) q)) :
    Implements opc op P :=
  implements_of (fun w => decode_plainWord (hop w)) h

/-! ## Results and flags -/

@[simp] theorem result_r (r : Word) : (result r).r = r := rfl
@[simp] theorem resultOV_r (r : Word) (ov : Bool) : (resultOV r ov).r = r := rfl
@[simp] theorem resultINV_r (r : Word) (inv : Bool) : (resultINV r inv).r = r := rfl

theorem noFlags_result (r : Word) : NoFlags (result r) := ⟨rfl, rfl, rfl⟩

theorem onlyOV_result (r : Word) {p : Prop} (h : ¬ p) : OnlyOV (result r) p :=
  ⟨⟨fun hov => Bool.noConfusion hov, fun hp => absurd hp h⟩, rfl, rfl⟩

theorem onlyOV_resultOV (r : Word) {ov : Bool} {p : Prop} (h : ov = true ↔ p) : OnlyOV (resultOV r ov) p := ⟨h, rfl, rfl⟩

theorem onlyINV_resultINV (r : Word) {inv : Bool} {p : Prop} (h : inv = true ↔ p) : OnlyINV (resultINV r inv) p :=
  ⟨rfl, h, rfl⟩

/-! ## Bits of a result of the width -/

theorem writeU_getLsbD_of_width {w : Width} {v : Nat} (h : v < 2 ^ w.bits) (i : Nat) :
    (writeU v).getLsbD i = v.testBit i := by
  rw [← BitVec.testBit_toNat, writeU_toNat_of_width h]

theorem onesOf_eq_popcount (r : Word) : onesOf r = popcount r.toNat := by
  simp only [onesOf, popcount_eq_countP r.isLt, BitVec.testBit_toNat]

/-- The count of 1 bits of an operand runs over the low w bits of its port (R12). -/
theorem popcount_readU (w : Width) (p : Word) :
    popcount (readU w p) = (List.range w.bits).countP fun i => p.getLsbD i := by
  rw [popcount_eq_countP (readU_lt w p)]
  refine List.countP_congr fun i hi => ?_
  simp [readU_testBit, List.mem_range.1 hi]

end Sys2Proof.Machine
end

section
/-! PROOFS. The masks of n ones, the extremes of n bits, bit reversal, and the tests of a bit count (40_bitmask.md R100 to
R102, R109 to R113, R121). -/

namespace Sys2Proof.Machine

/-! ## A bit count cut at the width -/

/-- A bit count within the width stays as it is (R100). -/
theorem clampCount_of_le {w : Width} {n : Nat} (h : n ≤ w.bits) : clampCount w n = n := by
  rw [clampCount_eq, min_eq_left h]

theorem clampCount_of_gt {w : Width} {n : Nat} (h : w.bits < n) : clampCount w n = w.bits := by
  rw [clampCount_eq, min_eq_right h.le]

theorem clampCount_le (w : Width) (n : Nat) : clampCount w n ≤ w.bits := by
  rw [clampCount_eq]; exact min_le_right _ _

theorem clampCount_eq_zero_iff (w : Width) (n : Nat) : clampCount w n = 0 ↔ n = 0 := by
  have := w.bits_pos
  rw [clampCount_eq]; omega

/-- Every value of the width is below `2^n` for a count above the width (R110). -/
theorem lt_two_pow_clampCount_iff {w : Width} {x : Nat} (hx : x < 2 ^ w.bits) (n : Nat) :
    x < 2 ^ clampCount w n ↔ x < 2 ^ n := by
  rcases le_or_gt n w.bits with h | h
  · rw [clampCount_of_le h]
  · rw [clampCount_of_gt h]
    exact iff_of_true hx (hx.trans (Nat.pow_lt_pow_right (by decide) h))

/-- Every signed value of the width lies within the range of a count above the width (R109). -/
theorem signedRange_clampCount_iff {w : Width} {x : Int} (hx : -2 ^ (w.bits - 1) ≤ x ∧ x < 2 ^ (w.bits - 1)) (n : Nat) :
    (-2 ^ (clampCount w n - 1) ≤ x ∧ x ≤ 2 ^ (clampCount w n - 1) - 1) ↔ (-2 ^ (n - 1) ≤ x ∧ x ≤ 2 ^ (n - 1) - 1) := by
  rcases le_or_gt n w.bits with h | h
  · rw [clampCount_of_le h]
  · rw [clampCount_of_gt h]
    have hpow : (2 : Int) ^ (w.bits - 1) ≤ 2 ^ (n - 1) := pow_le_pow_right₀ (by decide) (by omega)
    exact iff_of_true (by omega) (by omega)

/-! ## Masks -/

/-- The trailing ones fit in the width. -/
theorem trailingMask_lt {w : Width} {n : Nat} (h : n ≤ w.bits) : 2 ^ n - 1 < 2 ^ w.bits := by
  have := Nat.pow_le_pow_right (show 0 < 2 by decide) h
  have := Nat.two_pow_pos n
  omega

/-- The leading ones fit in the width. -/
theorem leadingMask_lt {w : Width} {n : Nat} (h : n ≤ w.bits) : (2 ^ n - 1) * 2 ^ (w.bits - n) < 2 ^ w.bits := by
  calc (2 ^ n - 1) * 2 ^ (w.bits - n) < 2 ^ n * 2 ^ (w.bits - n) :=
        Nat.mul_lt_mul_of_pos_right (Nat.sub_lt (Nat.two_pow_pos n) Nat.one_pos) (Nat.two_pow_pos _)
    _ = 2 ^ w.bits := by rw [← pow_add, Nat.add_sub_cancel' h]

/-- The 1 bits of the leading mask are bits `w − 1` down to `w − n` (R101). -/
theorem leadingMask_testBit {w : Width} {n : Nat} (h : n ≤ w.bits) (i : Nat) :
    ((2 ^ n - 1) * 2 ^ (w.bits - n)).testBit i = decide (w.bits - n ≤ i ∧ i < w.bits) := by
  rw [Nat.testBit_mul_two_pow, Nat.testBit_two_pow_sub_one, ← Bool.decide_and]
  exact decide_eq_decide.2 (by omega)

section
variable (w : Width) (q : Request)

theorem respMaskto_toNat : (respMaskto w q).r.toNat = 2 ^ min q.a.toNat w.bits - 1 := by
  rw [← clampCount_eq]
  exact writeU_toNat_of_width (trailingMask_lt (clampCount_le w _))

theorem respMaskto_getLsbD (i : Nat) : (respMaskto w q).r.getLsbD i = decide (i < min q.a.toNat w.bits) := by
  rw [← BitVec.testBit_toNat, respMaskto_toNat, Nat.testBit_two_pow_sub_one]

theorem respMaskto_onlyINV : OnlyINV (respMaskto w q) (w.bits < q.a.toNat) :=
  onlyINV_resultINV _ (countOutOfDomain_iff w _)

theorem respMasklo_toNat : (respMasklo w q).r.toNat =
    (2 ^ min q.a.toNat w.bits - 1) * 2 ^ (w.bits - min q.a.toNat w.bits) := by
  rw [← clampCount_eq]
  exact writeU_toNat_of_width (leadingMask_lt (clampCount_le w _))

theorem respMasklo_getLsbD (i : Nat) :
    (respMasklo w q).r.getLsbD i = decide (w.bits - min q.a.toNat w.bits ≤ i ∧ i < w.bits) := by
  rw [← BitVec.testBit_toNat, respMasklo_toNat, leadingMask_testBit (min_le_right _ _)]

theorem respMasklo_onlyINV : OnlyINV (respMasklo w q) (w.bits < q.a.toNat) :=
  onlyINV_resultINV _ (countOutOfDomain_iff w _)

end

/-- Settles O24: the bits of `2^n' − 1` are those below `n'`. -/
theorem masktoGivesTrailingOnes : Obligations.MasktoGivesTrailingOnes :=
  implements_of_operationAt (fun _ => rfl) fun w q =>
    ⟨respMaskto_toNat w q, respMaskto_getLsbD w q, respMaskto_onlyINV w q⟩

/-- Settles O25: the leading ones are the trailing ones shifted to the top of the width. -/
theorem maskloGivesLeadingOnes : Obligations.MaskloGivesLeadingOnes :=
  implements_of_operationAt (fun _ => rfl) fun w q =>
    ⟨respMasklo_toNat w q, respMasklo_getLsbD w q, respMasklo_onlyINV w q⟩

/-- Settles O35: MAXUINTN computes what MASKTO computes, and `v ≤ 2^n' − 1` is `v < 2^n'`. -/
theorem maxuintnIsTheUnsignedMaximum : Obligations.MaxuintnIsTheUnsignedMaximum := by
  refine ⟨implements_of_operationAt (fun _ => rfl) fun w q => ⟨fun v => ?_, respMaskto_onlyINV w q⟩,
    fun w q => ⟨rfl, rfl⟩⟩
  have hr : (responseOf (.maxuintn w) q).r.toNat = 2 ^ min q.a.toNat w.bits - 1 := respMaskto_toNat w q
  rw [hr, Nat.le_sub_one_iff_lt (Nat.two_pow_pos _)]

/-- Settles O37: a mask has as many 1 bits as its count says, and a shift within the width loses none. -/
theorem maskRoundTrip : Obligations.MaskRoundTrip := by
  intro w q hn
  have hmin : min q.a.toNat w.bits = q.a.toNat := min_eq_left hn
  have htr : (responseOf (.maskto w) q).r.toNat = 2 ^ q.a.toNat - 1 := hmin ▸ respMaskto_toNat w q
  have hld : (responseOf (.masklo w) q).r.toNat = (2 ^ q.a.toNat - 1) * 2 ^ (w.bits - q.a.toNat) :=
    hmin ▸ respMasklo_toNat w q
  obtain ⟨-, htinv, -⟩ := respMaskto_onlyINV w q
  obtain ⟨-, hlinv, -⟩ := respMasklo_onlyINV w q
  refine ⟨?onesTrailing, ?bitsTrailing, ?onesLeading, ?bitsLeading, ?noBits, ?allBits, ?invTrailing, ?invLeading⟩
  case onesTrailing => exact (onesOf_eq_popcount _).trans (by rw [htr, popcount_mask])
  case bitsTrailing =>
    intro i hi
    rwa [responseOf, respMaskto_getLsbD, decide_eq_true_iff, hmin] at hi
  case onesLeading =>
    exact (onesOf_eq_popcount _).trans (by rw [hld, popcount_mul_two_pow, popcount_mask])
  case bitsLeading =>
    intro i hi
    rwa [responseOf, respMasklo_getLsbD, decide_eq_true_iff, hmin] at hi
  case noBits =>
    intro h0
    rw [h0] at htr hld
    exact ⟨BitVec.eq_of_toNat_eq (by simpa using htr), BitVec.eq_of_toNat_eq (by simpa using hld)⟩
  case allBits =>
    intro hw
    rw [hw] at htr hld
    exact ⟨htr, by simpa using hld⟩
  case invTrailing => exact Bool.eq_false_iff.2 fun h => hn.not_gt (htinv.1 h)
  case invLeading => exact Bool.eq_false_iff.2 fun h => hn.not_gt (hlinv.1 h)

/-! ## Bit reversal -/

theorem respRevb_getLsbD (w : Width) (q : Request) (i : Nat) :
    (respRevb w q).r.getLsbD i = (decide (i < w.bits) && q.a.getLsbD (w.bits - 1 - i)) := by
  have hlt := reverseLow_lt w.bits (readU w q.a)
  rw [respRevb, result_r, writeU_getLsbD_of_width hlt]
  by_cases hi : i < w.bits
  · have hj : w.bits - 1 - i < w.bits := by omega
    simp [reverseLow_testBit, readU_testBit, hi, hj]
  · have hw : 2 ^ w.bits ≤ 2 ^ i := Nat.pow_le_pow_right (by decide) (by omega)
    simp [hi, Nat.testBit_lt_two_pow (hlt.trans_le hw)]

theorem respRevb_respRevb {w : Width} {q q' : Request} (h : q'.a = (respRevb w q).r) :
    (respRevb w q').r = (q.a.setWidth w.bits).setWidth 64 := by
  have := w.bits_le
  refine BitVec.eq_of_getLsbD_eq fun i hi => ?_
  rw [respRevb_getLsbD, h, respRevb_getLsbD, BitVec.getLsbD_setWidth, BitVec.getLsbD_setWidth]
  by_cases hw : i < w.bits
  · have hj : w.bits - 1 - i < w.bits := by omega
    have hback : w.bits - 1 - (w.bits - 1 - i) = i := by omega
    simp [hi, hw, hj, hback]
  · simp [hw]

/-- Settles O26. -/
theorem revbReversesTheBits : Obligations.RevbReversesTheBits :=
  ⟨implements_of_operationAt (fun _ => rfl) fun w q => ⟨respRevb_getLsbD w q, noFlags_result _⟩,
    fun _ _ _ => respRevb_respRevb⟩

/-! ## Signed extremes and range tests -/

/-- The extremes of `n ≤ w` bits are signed values of the width. -/
theorem two_pow_pred_bounds {w : Width} {n : Nat} (h : n ≤ w.bits) :
    (0 : Int) < 2 ^ (n - 1) ∧ (2 : Int) ^ (n - 1) ≤ 2 ^ (w.bits - 1) :=
  ⟨by positivity, pow_le_pow_right₀ (by decide) (by omega)⟩

theorem respMaxintn_toInt (w : Width) (q : Request) : (respMaxintn w q).r.toInt =
    if q.a.toNat = 0 then 0 else 2 ^ (min q.a.toNat w.bits - 1) - 1 := by
  obtain ⟨hpos, hle⟩ := two_pow_pred_bounds (clampCount_le w q.a.toNat)
  simp only [respMaxintn, resultINV_r, readN_eq, clampCount_eq_zero_iff]
  rw [writeS_toInt (by split <;> omega), clampCount_eq]

theorem respMinintn_toInt (w : Width) (q : Request) : (respMinintn w q).r.toInt =
    if q.a.toNat = 0 then 0 else -2 ^ (min q.a.toNat w.bits - 1) := by
  obtain ⟨hpos, hle⟩ := two_pow_pred_bounds (clampCount_le w q.a.toNat)
  simp only [respMinintn, resultINV_r, readN_eq, clampCount_eq_zero_iff]
  rw [writeS_toInt (by split <;> omega), clampCount_eq]

/-- Settles O34: the extremes of `min(n, w)` bits fit in the width, so sign extension keeps them. -/
theorem signedExtremesOfNBits : Obligations.SignedExtremesOfNBits :=
  ⟨implements_of_operationAt (fun _ => rfl) fun w q =>
      ⟨respMaxintn_toInt w q, onlyINV_resultINV _ (countOutOfDomain_iff w _)⟩,
    implements_of_operationAt (fun _ => rfl) fun w q =>
      ⟨respMinintn_toInt w q, onlyINV_resultINV _ (countOutOfDomain_iff w _)⟩⟩

theorem respIsintn_of_zero {w : Width} {q : Request} (h : q.a.toNat = 0) :
    respIsintn w q = resultINV (writeB (signedValue w q.b == 0)) (countOutOfDomain w q.a.toNat) := by
  simp [respIsintn, readN_eq, clampCount_eq_zero_iff, h, readS_eq]

theorem respIsintn_of_ne_zero {w : Width} {q : Request} (h : q.a.toNat ≠ 0) : respIsintn w q =
    resultINV (writeB (decide (-2 ^ (q.a.toNat - 1) ≤ signedValue w q.b ∧ signedValue w q.b ≤ 2 ^ (q.a.toNat - 1) - 1)))
      (countOutOfDomain w q.a.toNat) := by
  simp only [respIsintn, readN_eq, clampCount_eq_zero_iff, if_neg h, readS_eq,
    signedRange_clampCount_iff (signedValue_bounds w q.b)]

/-- Settles O33: cutting the count at the width changes no answer. -/
theorem rangeTestsGiveTheMathematicalAnswer : Obligations.RangeTestsGiveTheMathematicalAnswer := by
  refine ⟨implements_of_operationAt (fun _ => rfl) fun w q => ?signed,
    implements_of_operationAt (fun _ => rfl) fun w q => ?unsigned⟩
  case signed =>
    rw [responseOf]
    by_cases h0 : q.a.toNat = 0
    · rw [respIsintn_of_zero h0]
      exact ⟨fun _ => writeB_answers beq_iff_eq, fun h => absurd h0 h, onlyINV_resultINV _ (countOutOfDomain_iff w _)⟩
    · rw [respIsintn_of_ne_zero h0]
      exact ⟨fun h => absurd h h0, fun _ => writeB_answers decide_eq_true_iff,
        onlyINV_resultINV _ (countOutOfDomain_iff w _)⟩
  case unsigned =>
    refine ⟨writeB_answers ?_, onlyINV_resultINV _ (countOutOfDomain_iff w _)⟩
    rw [decide_eq_true_iff, ← readU_eq]
    exact lt_two_pow_clampCount_iff (readU_lt w q.b) _

end Sys2Proof.Machine
end

section
/-! PROOFS. Powers of two: the test, the powers at or above and above a value, and the logarithm (40_bitmask.md R103 to R105,
R114, R122). -/

namespace Sys2Proof.Machine

/-! ## The least power of two above a value -/

theorem bitlen_two_pow_sub_one (k : Nat) : bitlen (2 ^ k - 1) = k := by
  cases k with
  | zero => rfl
  | succ k =>
    have hpos := Nat.two_pow_pos k
    have hle := (bitlen_le_iff (2 ^ (k + 1) - 1) (k + 1)).2 (by omega)
    have hgt := mt (bitlen_le_iff (2 ^ (k + 1) - 1) k).1 (by omega)
    omega

/-- The least power of two above a value fits in the width exactly where the value is below the width's top bit. -/
theorem two_pow_bitlen_lt_iff (w : Width) (x : Nat) : 2 ^ bitlen x < 2 ^ w.bits ↔ x < 2 ^ (w.bits - 1) := by
  have := w.bits_pos
  rw [Nat.pow_lt_pow_iff_right (by decide), ← bitlen_le_iff]
  omega

/-- The least power of two above `x` as a response: its value, or 0 with OV (R105). -/
theorem zeroOnOverflow_two_pow_bitlen_of_lt {w : Width} {x : Nat} (h : x < 2 ^ (w.bits - 1)) :
    zeroOnOverflow w (2 ^ bitlen x) = result (writeU (2 ^ bitlen x)) ∧ (writeU (2 ^ bitlen x)).toNat = 2 ^ bitlen x := by
  have hfits := (two_pow_bitlen_lt_iff w x).2 h
  exact ⟨zeroOnOverflow_of_lt hfits, writeU_toNat_of_width hfits⟩

theorem zeroOnOverflow_two_pow_bitlen_of_ge {w : Width} {x : Nat} (h : 2 ^ (w.bits - 1) ≤ x) :
    zeroOnOverflow w (2 ^ bitlen x) = resultOV 0 true :=
  zeroOnOverflow_of_ge (not_lt.1 (mt (two_pow_bitlen_lt_iff w x).1 h.not_gt))

theorem respNextp2_eq (w : Width) (q : Request) :
    respNextp2 w q = zeroOnOverflow w (2 ^ bitlen (unsignedValue w q.a)) := by
  rw [respNextp2, readU_eq]

/-- Settles O29: `2 ^ bitlen x` is the least power of two above `x`, and it fits where `x` is below the top bit. -/
theorem nextp2IsTheLeastPowerAbove : Obligations.Nextp2IsTheLeastPowerAbove := by
  refine implements_of_operationAt (fun _ => rfl) fun w q => ?_
  rw [responseOf, respNextp2_eq]
  generalize unsignedValue w q.a = x
  rcases lt_or_ge x (2 ^ (w.bits - 1)) with h | h
  · obtain ⟨hr, hv⟩ := zeroOnOverflow_two_pow_bitlen_of_lt h
    rw [hr, result_r, hv]
    exact ⟨fun _ => ⟨⟨_, rfl⟩, lt_two_pow_bitlen x, fun _ => two_pow_bitlen_le⟩, fun hge => absurd h hge.not_gt,
      onlyOV_result _ h.not_ge⟩
  · rw [zeroOnOverflow_two_pow_bitlen_of_ge h]
    exact ⟨fun hlt => absurd hlt h.not_gt, fun _ => rfl, onlyOV_resultOV _ (iff_of_true rfl h)⟩

/-! ## The least power of two at or above a value -/

theorem respP2ceil_of_zero {w : Width} {q : Request} (h : unsignedValue w q.a = 0) : respP2ceil w q = result 0 := by
  rw [respP2ceil, readU_eq, h]; rfl

/-- At or above `x` is above `x − 1`. -/
theorem respP2ceil_of_ne_zero {w : Width} {q : Request} (h : unsignedValue w q.a ≠ 0) :
    respP2ceil w q = zeroOnOverflow w (2 ^ bitlen (unsignedValue w q.a - 1)) := by
  simp only [respP2ceil, readU_eq, if_neg h]

/-- Settles O28: the least power of two at or above `x > 0` is the least above `x − 1`. -/
theorem p2ceilIsTheLeastPowerAtOrAbove : Obligations.P2ceilIsTheLeastPowerAtOrAbove := by
  refine implements_of_operationAt (fun _ => rfl) fun w q => ?_
  have htop := Nat.two_pow_pos (w.bits - 1)
  rw [responseOf]
  by_cases h0 : unsignedValue w q.a = 0
  · rw [respP2ceil_of_zero h0]
    exact ⟨fun _ => rfl, fun h => absurd h0 h, fun h => by omega, onlyOV_result _ (by omega)⟩
  rw [respP2ceil_of_ne_zero h0]
  generalize unsignedValue w q.a = x at *
  rcases le_or_gt x (2 ^ (w.bits - 1)) with h | h
  · obtain ⟨hr, hv⟩ := zeroOnOverflow_two_pow_bitlen_of_lt (w := w) (x := x - 1) (by omega)
    rw [hr, result_r, hv]
    have habove := lt_two_pow_bitlen (x - 1)
    exact ⟨fun h => absurd h h0,
      fun _ _ => ⟨⟨_, rfl⟩, by omega, fun k hk => two_pow_bitlen_le (by omega)⟩,
      fun hgt => absurd h hgt.not_ge, onlyOV_result _ h.not_gt⟩
  · rw [zeroOnOverflow_two_pow_bitlen_of_ge (by omega)]
    exact ⟨fun h => absurd h h0, fun _ hle => absurd h hle.not_gt, fun _ => rfl, onlyOV_resultOV _ (iff_of_true rfl h)⟩

/-- What P2CEIL can give: 0, for 0 or with OV, or a power of two of the width. -/
theorem respP2ceil_cases (w : Width) (q : Request) :
    (respP2ceil w q).r = 0 ∧ (unsignedValue w q.a = 0 ∨ (respP2ceil w q).ov = true) ∨
    ∃ k, 2 ^ k < 2 ^ w.bits ∧ (respP2ceil w q).r = writeU (2 ^ k) := by
  by_cases h0 : unsignedValue w q.a = 0
  · exact .inl ⟨by rw [respP2ceil_of_zero h0]; rfl, .inl h0⟩
  rw [respP2ceil_of_ne_zero h0]
  rcases lt_or_ge (unsignedValue w q.a - 1) (2 ^ (w.bits - 1)) with h | h
  · refine .inr ⟨_, (two_pow_bitlen_lt_iff w _).2 h, ?_⟩
    rw [(zeroOnOverflow_two_pow_bitlen_of_lt h).1, result_r]
  · rw [zeroOnOverflow_two_pow_bitlen_of_ge h]
    exact .inl ⟨rfl, .inr rfl⟩

/-- A power of two of the width is its own ceiling. -/
theorem respP2ceil_of_two_pow {w : Width} {q : Request} {k : Nat} (hk : 2 ^ k < 2 ^ w.bits)
    (h : q.a = writeU (2 ^ k)) : respP2ceil w q = result (writeU (2 ^ k)) := by
  have hu : unsignedValue w q.a = 2 ^ k := by rw [h, unsignedValue_writeU hk]
  rw [respP2ceil_of_ne_zero (hu ▸ (Nat.two_pow_pos k).ne'), hu, bitlen_two_pow_sub_one, zeroOnOverflow_of_lt hk]

/-! ## The test for a power of two -/

theorem respIspow2_answers (w : Width) (q : Request) :
    Answers (respIspow2 w q).r (∃ k, unsignedValue w q.a = 2 ^ k) :=
  writeB_answers (by rw [beq_iff_eq, readU_eq, popcount_eq_one_iff])

/-- Settles O27: a power of two is a number with one 1 bit. -/
theorem ispow2TestsForAPowerOfTwo : Obligations.Ispow2TestsForAPowerOfTwo :=
  implements_of_operationAt (fun _ => rfl) fun w q =>
    ⟨respIspow2_answers w q, writeB_answers (by rw [beq_iff_eq, popcount_readU]), noFlags_result _⟩

/-- Settles O38: a ceiling is 0 or a power of two of the width, and each is its own ceiling. -/
theorem powerOfTwoProperties : Obligations.PowerOfTwoProperties := by
  intro w q q' hq'
  rcases respP2ceil_cases w q with ⟨hr, hwhy⟩ | ⟨k, hk, hr⟩
  · have hzero : unsignedValue w q'.a = 0 := by rw [hq', responseOf, hr]; simp
    refine ⟨fun h0 hov => absurd (hwhy.resolve_left h0) (Bool.eq_false_iff.1 hov), ?_⟩
    simp only [responseOf, hr, respP2ceil_of_zero hzero, result_r]
  · have hpow : q'.a = writeU (2 ^ k) := hq'.trans hr
    refine ⟨fun _ _ => (respIspow2_answers w q').1 ⟨k, by rw [hpow, unsignedValue_writeU hk]⟩, ?_⟩
    simp only [responseOf, hr, respP2ceil_of_two_pow hk hpow, result_r]

/-! ## The logarithm -/

theorem respCtlog2_of_zero {w : Width} {q : Request} (h : unsignedValue w q.a = 0) :
    respCtlog2 w q = resultINV 0 true := by
  rw [respCtlog2, readU_eq, h]; rfl

theorem respCtlog2_of_ne_zero {w : Width} {q : Request} (h : unsignedValue w q.a ≠ 0) :
    respCtlog2 w q = resultINV (writeU (bitlen (unsignedValue w q.a) - 1)) (!ispow2 (unsignedValue w q.a)) := by
  simp only [respCtlog2, readU_eq, if_neg h]

/-- Settles O36: the index of the highest 1 bit is one less than the bit length. -/
theorem ctlog2IsTheLogarithm : Obligations.Ctlog2IsTheLogarithm := by
  refine implements_of_operationAt (fun _ => rfl) fun w q => ?_
  rw [responseOf]
  by_cases h0 : unsignedValue w q.a = 0
  · rw [respCtlog2_of_zero h0]
    refine ⟨fun _ => rfl, fun h => absurd h0 h, onlyINV_resultINV _ (iff_of_true rfl ?_)⟩
    rintro ⟨k, hk⟩
    exact (Nat.two_pow_pos k).ne (h0.symm.trans hk)
  · have hpos := bitlen_pos h0
    have hle := (bitlen_le_iff _ w.bits).2 (unsignedValue_lt w q.a)
    rw [respCtlog2_of_ne_zero h0, resultINV_r, writeU_toNat_of_le_bits (w := w) (by omega), Nat.sub_add_cancel hpos]
    refine ⟨fun h => absurd h h0, fun _ => ⟨two_pow_le_of_bitlen (by omega), lt_two_pow_bitlen _⟩,
      onlyINV_resultINV _ ?_⟩
    rw [Bool.not_eq_true', Bool.eq_false_iff, ne_eq, ispow2_iff]

end Sys2Proof.Machine
end

section
/-! PROOFS. Runs of ones and shifted windows: ISSHMASK, ISSHU and ISSHS (40_bitmask.md R106 to R108). -/

namespace Sys2Proof.Machine

/-! ## Runs of ones -/

/-- `x` is a run of `L` ones that starts at bit `t` (R106). -/
def IsRun (x t L : Nat) : Prop := 1 ≤ L ∧ x = (2 ^ L - 1) * 2 ^ t

theorem IsRun.pos {x t L : Nat} (h : IsRun x t L) : 0 < x := by
  obtain ⟨hL, rfl⟩ := h
  have hpow : 1 < 2 ^ L := Nat.one_lt_two_pow (by omega)
  exact Nat.mul_pos (by omega) (Nat.two_pow_pos t)

/-- The start and the length of a run are its trailing zeros and its number of 1 bits. -/
theorem IsRun.start_length {x t L : Nat} (h : IsRun x t L) : trailingZeros x = t ∧ popcount x = L := by
  obtain ⟨hL, rfl⟩ := h
  exact ⟨trailingZeros_run t hL, by rw [popcount_mul_two_pow, popcount_mask]⟩

/-- A run of the width starts within it and is no longer than it. -/
theorem IsRun.bounds {x t L k : Nat} (h : IsRun x t L) (hx : x < 2 ^ k) : t < k ∧ L ≤ k := by
  refine ⟨h.start_length.1 ▸ trailingZeros_lt h.pos.ne' hx, (Nat.pow_le_pow_iff_right (by decide : 1 < 2)).1 ?_⟩
  have hle := Nat.le_mul_of_pos_right (2 ^ L - 1) (Nat.two_pow_pos t)
  rw [← h.2] at hle
  omega

/-- The test of R106: the value shifted down by its trailing zeros is one below a power of two exactly where it is a run. -/
theorem ispow2_shifted_iff {x : Nat} (h0 : x ≠ 0) :
    ispow2 (x / 2 ^ trailingZeros x + 1) = true ↔ ∃ t L, IsRun x t L := by
  rw [ispow2_iff]
  constructor
  · rintro ⟨L, hL⟩
    have hx : x = (2 ^ L - 1) * 2 ^ trailingZeros x := by
      rw [← hL, Nat.add_sub_cancel, Nat.div_mul_cancel (trailingZeros_dvd h0)]
    refine ⟨_, L, Nat.one_le_iff_ne_zero.2 ?_, hx⟩
    rintro rfl
    exact h0 (by simpa using hx)
  · rintro ⟨t, L, hrun⟩
    refine ⟨L, ?_⟩
    rw [hrun.start_length.1, hrun.2, Nat.mul_div_cancel _ (Nat.two_pow_pos t), Nat.sub_add_cancel (Nat.two_pow_pos L)]

theorem respIsshmask_of_run {w : Width} {q : Request} {t L : Nat} (h : IsRun (unsignedValue w q.a) t L) :
    respIsshmask w q = result (packRun t L) := by
  obtain ⟨ht, hL⟩ := h.start_length
  have hpow := (ispow2_shifted_iff h.pos.ne').2 ⟨t, L, h⟩
  rw [ht] at hpow
  simp only [respIsshmask, readU_eq, if_neg h.pos.ne', ht, hL, if_pos hpow]

theorem respIsshmask_of_no_run {w : Width} {q : Request} (h : ¬ ∃ t L, IsRun (unsignedValue w q.a) t L) :
    respIsshmask w q = result 0 := by
  simp only [respIsshmask, readU_eq]
  split
  · rfl
  next h0 => rw [if_neg (mt (ispow2_shifted_iff h0).1 h)]

/-- Settles O30: the start and the length of a run of the width fit in their fields. -/
theorem isshmaskFindsTheRun : Obligations.IsshmaskFindsTheRun := by
  refine implements_of_operationAt (fun _ => rfl) fun w q => ?_
  rw [responseOf]
  by_cases h : ∃ t L, IsRun (unsignedValue w q.a) t L
  · refine ⟨fun t L hL hx => ?_, fun hno => absurd h hno, ?_⟩
    · have hrun : IsRun (unsignedValue w q.a) t L := ⟨hL, hx⟩
      obtain ⟨ht, hLw⟩ := hrun.bounds (unsignedValue_lt w q.a)
      have := w.bits_le
      rw [respIsshmask_of_run hrun, result_r, packRun_toNat (by omega) (by omega)]
    · obtain ⟨t, L, hrun⟩ := h
      exact respIsshmask_of_run hrun ▸ noFlags_result _
  · rw [respIsshmask_of_no_run h]
    exact ⟨fun t L hL hx => absurd ⟨t, L, hL, hx⟩ h, fun _ => rfl, noFlags_result _⟩

/-! ## Shifted windows -/

/-- At every width the word of ISSHU or ISSHS with PW = `W` and PS = `S` decodes to what the opcode map names (R72). -/
theorem decode_windowWord {opc : BitVec 6} {w : Width} {W S : BitVec 7} {i : Instr} (hopc : opc = 0x08 ∨ opc = 0x09)
    (h : operationAt w 2 W.toNat S.toNat opc.toNat = some i) : decode (fieldsWord 0 S W 0 (wselBits w) opc) = .ok i := by
  rw [fieldsWord_eq_commandWord]
  apply FieldsOf.decode_commandWord
  rcases hopc with rfl | rfl <;>
    exact ⟨by decide, by decide, W.isLt, S.isLt, h, fun _ => rfl, fun _ => by decide, fun ho => absurd ho (by decide)⟩

/-- `x` is some `v` below `2^W`, shifted left by `S` (R107). -/
theorem unsignedWindow_iff (x W S : Nat) :
    (x % 2 ^ S = 0 ∧ x / 2 ^ S < 2 ^ W) ↔ ∃ v, v < 2 ^ W ∧ v * 2 ^ S = x := by
  constructor
  · rintro ⟨hdvd, hlt⟩
    exact ⟨_, hlt, Nat.div_mul_cancel (Nat.dvd_of_mod_eq_zero hdvd)⟩
  · rintro ⟨v, hlt, rfl⟩
    exact ⟨Nat.mul_mod_left _ _, by rwa [Nat.mul_div_cancel _ (Nat.two_pow_pos S)]⟩

/-- `x` is some `v` from `lo` to `hi`, shifted left by `S` (R108). -/
theorem signedWindow_iff (x lo hi : Int) (S : Nat) :
    (emod x (2 ^ S) = 0 ∧ lo ≤ fdiv x (2 ^ S) ∧ fdiv x (2 ^ S) ≤ hi) ↔ ∃ v : Int, lo ≤ v ∧ v ≤ hi ∧ v * 2 ^ S = x := by
  rw [emod_eq, fdiv]
  constructor
  · rintro ⟨hdvd, hlo, hhi⟩
    exact ⟨_, hlo, hhi, Int.fdiv_mul_cancel (Int.dvd_of_emod_eq_zero hdvd)⟩
  · rintro ⟨v, hlo, hhi, rfl⟩
    rw [Int.mul_fdiv_cancel v (by positivity)]
    exact ⟨Int.mul_emod_left _ _, hlo, hhi⟩

/-- Settles O31: the quotient by `2^S` is the only candidate for the value. -/
theorem isshuTestsTheUnsignedWindow : Obligations.IsshuTestsTheUnsignedWindow := by
  refine fun w W S => ⟨decode_windowWord (.inl rfl) rfl, completes_of_responseOf fun q =>
    ⟨writeB_answers ?_, noFlags_result _⟩⟩
  rw [Bool.and_eq_true, beq_iff_eq, decide_eq_true_iff, readU_eq, unsignedWindow_iff]

theorem respIsshs_zero (w : Width) (S : Nat) (q : Request) :
    respIsshs w 0 S q = result (writeB (signedValue w q.a == 0)) := by
  rw [respIsshs, if_pos rfl, readS_eq]

theorem respIsshs_of_ne_zero (w : Width) {W : Nat} (S : Nat) (q : Request) (h : W ≠ 0) :
    ∃ b : Bool, respIsshs w W S q = result (writeB b) ∧
      (b = true ↔ ∃ v : Int, -2 ^ (W - 1) ≤ v ∧ v ≤ 2 ^ (W - 1) - 1 ∧ v * 2 ^ S = signedValue w q.a) := by
  refine ⟨_, if_neg h, ?_⟩
  rw [Bool.and_eq_true, beq_iff_eq, decide_eq_true_iff, readS_eq, signedWindow_iff]

/-- Settles O32: as O31 for signed values, with the window of no bits apart. -/
theorem isshsTestsTheSignedWindow : Obligations.IsshsTestsTheSignedWindow := by
  refine fun w W S => ⟨decode_windowWord (.inr rfl) rfl, completes_of_responseOf fun q => ?_⟩
  rw [responseOf]
  by_cases hW : W = 0
  · subst hW
    rw [BitVec.ofNat_eq_ofNat, BitVec.toNat_zero, respIsshs_zero]
    exact ⟨fun _ => writeB_answers beq_iff_eq, fun h => absurd rfl h, noFlags_result _⟩
  · obtain ⟨b, hr, hb⟩ := respIsshs_of_ne_zero w S.toNat q (fun h => hW (BitVec.eq_of_toNat_eq h))
    rw [hr]
    exact ⟨fun h => absurd h hW, fun _ => writeB_answers hb, noFlags_result _⟩

end Sys2Proof.Machine
end

section
/-! PROOFS. The zero detectors and the barrel shifter (41_count_shift.md R140 to R144). -/

namespace Sys2Proof.Machine

/-! ## Leading zeros -/

section
variable (w : Width) (q : Request)

theorem bitlen_unsignedValue_le : bitlen (unsignedValue w q.a) ≤ w.bits :=
  (bitlen_le_iff _ _).2 (unsignedValue_lt w q.a)

/-- The bits of the width that the value leaves unused (R140). -/
theorem respClz_toNat : (respClz w q).r.toNat = w.bits - bitlen (unsignedValue w q.a) := by
  rw [respClz, result_r, readU_eq, writeU_toNat_of_le_bits (Nat.sub_le _ _)]

end

theorem respCtlog2_toNat_of_ne_zero {w : Width} {q : Request} (h : unsignedValue w q.a ≠ 0) :
    (respCtlog2 w q).r.toNat = bitlen (unsignedValue w q.a) - 1 := by
  have hle := bitlen_unsignedValue_le w q
  rw [respCtlog2_of_ne_zero h, resultINV_r, writeU_toNat_of_le_bits (w := w) (by omega)]

/-- Settles O39: CLZ is the width less the bit length, and CTLOG2 the bit length less one. -/
theorem clzCountsLeadingZeros : Obligations.ClzCountsLeadingZeros := by
  refine ⟨implements_of_operationAt (fun _ => rfl) fun w q => ?counts, fun w q h => ?logarithm⟩
  case counts =>
    have hle := bitlen_unsignedValue_le w q
    rw [responseOf, respClz_toNat]
    refine ⟨Nat.sub_le _ _, fun h => by rw [h]; rfl, fun h => ?_, noFlags_result _⟩
    have hpos := bitlen_pos h
    refine ⟨by omega, two_pow_le_of_bitlen (by omega), ?_⟩
    rw [Nat.sub_sub_self hle]
    exact lt_two_pow_bitlen _
  case logarithm =>
    have hle := bitlen_unsignedValue_le w q
    rw [responseOf, responseOf, respCtlog2_toNat_of_ne_zero h, respClz_toNat]
    omega

/-! ## Trailing zeros -/

theorem respCtz_toNat_of_zero {w : Width} {q : Request} (h : unsignedValue w q.a = 0) :
    (respCtz w q).r.toNat = w.bits := by
  simp only [respCtz, readU_eq, if_pos h, result_r, writeU_toNat_of_le_bits le_rfl]

theorem respCtz_toNat_of_ne_zero {w : Width} {q : Request} (h : unsignedValue w q.a ≠ 0) :
    (respCtz w q).r.toNat = trailingZeros (unsignedValue w q.a) := by
  have hlt := trailingZeros_lt h (unsignedValue_lt w q.a)
  simp only [respCtz, readU_eq, if_neg h, result_r, writeU_toNat_of_le_bits hlt.le]

/-- The start field of ISSHMASK's result (R106). -/
theorem packRun_start {t L : Nat} (ht : t < 128) (hL : L < 128) : ((packRun t L).extractLsb 14 8).toNat = t := by
  rw [BitVec.extractLsb_toNat, packRun_toNat ht hL, Nat.shiftRight_eq_div_pow]
  omega

/-- ISSHMASK answers with a run only where it finds one (R106). -/
theorem isRun_of_respIsshmask {w : Width} {q : Request} (h : (respIsshmask w q).r.getLsbD 0 = true) :
    ∃ t L, IsRun (unsignedValue w q.a) t L := by
  by_contra hno
  simp [respIsshmask_of_no_run hno] at h

/-- Settles O40: the start of a run is the number of its trailing zeros. -/
theorem ctzCountsTrailingZeros : Obligations.CtzCountsTrailingZeros := by
  refine ⟨implements_of_operationAt (fun _ => rfl) fun w q =>
    ⟨respCtz_toNat_of_zero, fun h j => ?counts, noFlags_result _⟩, fun w q h => ?start⟩
  case counts => rw [responseOf, respCtz_toNat_of_ne_zero h, le_trailingZeros_iff h]
  case start =>
    obtain ⟨t, L, hrun⟩ := isRun_of_respIsshmask h
    obtain ⟨ht, hL⟩ := hrun.bounds (unsignedValue_lt w q.a)
    have := w.bits_le
    rw [responseOf, responseOf, respIsshmask_of_run hrun, result_r, packRun_start (by omega) (by omega),
      respCtz_toNat_of_ne_zero hrun.pos.ne', hrun.start_length.1]

/-! ## Shifts -/

/-- R142 for an amount of the width or more. -/
theorem respShl_of_ge {w : Width} {q : Request} (h : w.bits ≤ q.b.toNat) : (respShl w q).r = 0 :=
  congrArg writeU (if_pos h)

/-- R143 for an amount of the width or more. -/
theorem respShr_of_ge {w : Width} {q : Request} (h : w.bits ≤ q.b.toNat) : (respShr w q).r = 0 :=
  congrArg writeU (if_pos h)

section
variable (w : Width) (q : Request)

/-- The shifted value cut at the width, for amounts of the width or more too (R142). -/
theorem respShl_toNat : (respShl w q).r.toNat = readU w q.a * 2 ^ q.b.toNat % 2 ^ w.bits := by
  rcases le_or_gt w.bits q.b.toNat with h | h
  · have hdvd : 2 ^ w.bits ∣ readU w q.a * 2 ^ q.b.toNat := (pow_dvd_pow 2 h).mul_left _
    rw [respShl_of_ge h, Nat.mod_eq_zero_of_dvd hdvd]; rfl
  · have hwrap : wrap w ((readU w q.a : Int) * 2 ^ q.b.toNat) = readU w q.a * 2 ^ q.b.toNat % 2 ^ w.bits := by
      exact_mod_cast wrap_natCast w (readU w q.a * 2 ^ q.b.toNat)
    rw [respShl, result_r, readN_eq, if_neg h.not_ge, hwrap,
      writeU_toNat_of_width (Nat.mod_lt _ (Nat.two_pow_pos w.bits))]

/-- The quotient by the power of two, for amounts of the width or more too (R143). -/
theorem respShr_toNat : (respShr w q).r.toNat = readU w q.a / 2 ^ q.b.toNat := by
  have hx := readU_lt w q.a
  rcases le_or_gt w.bits q.b.toNat with h | h
  · rw [respShr_of_ge h, Nat.div_eq_of_lt (hx.trans_le (Nat.pow_le_pow_right (by decide) h))]; rfl
  · rw [respShr, result_r, readN_eq, if_neg h.not_ge, writeU_toNat_of_width ((Nat.div_le_self _ _).trans_lt hx)]

theorem respShl_getLsbD (i : Nat) : (respShl w q).r.getLsbD i =
    (decide (q.b.toNat ≤ i ∧ i < w.bits) && q.a.getLsbD (i - q.b.toNat)) := by
  rw [← BitVec.testBit_toNat, respShl_toNat, Nat.testBit_mod_two_pow, Nat.testBit_mul_two_pow, readU_testBit,
    ← Bool.and_assoc, ← Bool.and_assoc, ← Bool.decide_and, ← Bool.decide_and]
  congr 1
  exact decide_eq_decide.2 (by omega)

theorem respShr_getLsbD (i : Nat) : (respShr w q).r.getLsbD i =
    (decide (i + q.b.toNat < w.bits) && q.a.getLsbD (i + q.b.toNat)) := by
  rw [← BitVec.testBit_toNat, respShr_toNat, Nat.testBit_div_two_pow, readU_testBit]

end

/-- Settles O41: the bits are where the shift moves them, and none stays where the amount is the width or more. -/
theorem shiftsWithinTheWidth : Obligations.ShiftsWithinTheWidth :=
  ⟨implements_of_operationAt (fun _ => rfl) fun w q =>
      ⟨respShl_of_ge, fun _ => respShl_getLsbD w q, noFlags_result _⟩,
    implements_of_operationAt (fun _ => rfl) fun w q =>
      ⟨respShr_of_ge, fun _ => respShr_getLsbD w q, noFlags_result _⟩⟩

/-! ## Masks as shifts -/

theorem getLsbD_of_allOnes {w : Width} {p : Word} (h : unsignedValue w p = 2 ^ w.bits - 1) {i : Nat} (hi : i < w.bits) :
    p.getLsbD i = true := by
  have hbit := readU_testBit w p i
  rw [readU_eq, h, Nat.testBit_two_pow_sub_one, decide_eq_true hi, Bool.true_and] at hbit
  exact hbit.symm

/-- Which bits of all ones a shift keeps is decided by its condition on the place alone. -/
theorem decide_and_getLsbD_of_allOnes {w : Width} {p : Word} (h : unsignedValue w p = 2 ^ w.bits - 1) {i : Nat} {c : Prop}
    [Decidable c] (hc : c → i < w.bits) : (decide c && p.getLsbD i) = decide c := by
  rw [Bool.and_eq_left_iff_imp, decide_eq_true_iff]
  exact fun hi => getLsbD_of_allOnes h (hc hi)

/-- Settles O42: a shift of all ones by `w − n` leaves the `n` bits of the mask, also where it is a shift by the width. -/
theorem masksAreShiftsOfAllOnes : Obligations.MasksAreShiftsOfAllOnes := by
  intro w q ones hn hones hb
  refine ⟨BitVec.eq_of_getLsbD_eq fun i _ => ?trailing, BitVec.eq_of_getLsbD_eq fun i _ => ?leading⟩
  case trailing =>
    rw [responseOf, responseOf, respMaskto_getLsbD, respShr_getLsbD, min_eq_left hn, hb,
      decide_and_getLsbD_of_allOnes hones id]
    exact decide_eq_decide.2 (by omega)
  case leading =>
    rw [responseOf, responseOf, respMasklo_getLsbD, respShl_getLsbD, min_eq_left hn, hb,
      decide_and_getLsbD_of_allOnes hones (by omega)]

end Sys2Proof.Machine
end

section
/-! PROOFS. The alignment operations: the greatest common power of two, rounding up to a residue class or to a multiple, and
rounding down (42_alignment.md R160 to R165). -/

namespace Sys2Proof.Machine

/-! ## The greatest common power of two -/

section
variable {w : Width} {q : Request}

theorem respMinalign_of_zero (ha : unsignedValue w q.a = 0) (hb : unsignedValue w q.b = 0) :
    respMinalign w q = result 0 := by
  rw [respMinalign, readU_eq, readU_eq, ha, hb]; rfl

/-- R carries the power of two at the lowest 1 bit of the bitwise or (R160). -/
theorem respMinalign_toNat_of_ne_zero (h : unsignedValue w q.a ||| unsignedValue w q.b ≠ 0) :
    (respMinalign w q).r.toNat = 2 ^ trailingZeros (unsignedValue w q.a ||| unsignedValue w q.b) := by
  have hlt := Nat.or_lt_two_pow (unsignedValue_lt w q.a) (unsignedValue_lt w q.b)
  have hpow := Nat.pow_lt_pow_right (a := 2) (by decide) (trailingZeros_lt h hlt)
  simp only [respMinalign, readU_eq, if_neg h, result_r, writeU_toNat_of_width hpow]

end

/-- Settles O43: the powers of two that divide both operands are those that divide their bitwise or. -/
theorem minalignIsTheGreatestCommonPower : Obligations.MinalignIsTheGreatestCommonPower := by
  refine ⟨implements_of_operationAt (fun _ => rfl) fun w q =>
    ⟨fun ha hb => ?zero, fun hne => ?power, noFlags_result _⟩, fun w q => ?exchange⟩
  case zero => rw [responseOf, respMinalign_of_zero ha hb, result_r]
  case power =>
    have hor : unsignedValue w q.a ||| unsignedValue w q.b ≠ 0 := mt Nat.or_eq_zero_iff.1 hne
    rw [responseOf, respMinalign_toNat_of_ne_zero hor]
    refine ⟨⟨_, rfl⟩, fun j => ?_⟩
    rw [← two_pow_dvd_or_iff, ← le_trailingZeros_iff hor, Nat.pow_le_pow_iff_right (by decide)]
  case exchange => simp only [responseOf, respMinalign, Nat.or_comm]

/-! ## Rounding up to a residue class -/

/-- The unsigned result where it fits and 0 with OV where it does not, as a number (R161). -/
theorem zeroOnOverflow_spec (w : Width) (z : Nat) :
    (zeroOnOverflow w z).r.toNat = (if z < 2 ^ w.bits then z else 0) ∧ OnlyOV (zeroOnOverflow w z) (2 ^ w.bits ≤ z) := by
  rcases lt_or_ge z (2 ^ w.bits) with h | h
  · rw [zeroOnOverflow_of_lt h, if_pos h]
    exact ⟨writeU_toNat_of_width h, onlyOV_result _ h.not_ge⟩
  · rw [zeroOnOverflow_of_ge h, if_neg h.not_gt]
    exact ⟨rfl, onlyOV_resultOV _ (iff_of_true rfl h)⟩

section
variable {w : Width} {q : Request}

theorem respAlignto_of_zero (h : unsignedValue w q.b = 0) :
    respAlignto w q = resultINV (writeU (unsignedValue w q.a)) true := by
  simp only [respAlignto, readU_eq, if_pos h]

theorem respAlignto_of_ne_zero (h : unsignedValue w q.b ≠ 0) :
    respAlignto w q = zeroOnOverflow w (alignUp (unsignedValue w q.a) (unsignedValue w q.b) (unsignedValue w q.c)) := by
  simp only [respAlignto, readU_eq, if_neg h]

end

/-- Settles O44: `alignUp` is the least value at or above the operand that is congruent to the skew. -/
theorem aligntoIsTheLeastCongruentValue : Obligations.AligntoIsTheLeastCongruentValue := by
  refine implements_of_operationAt (fun _ => rfl) fun w q => ⟨fun h => ?zero, fun h => ?least⟩
  case zero =>
    rw [responseOf, respAlignto_of_zero h]
    exact ⟨writeU_toNat_of_width (unsignedValue_lt w q.a), onlyINV_resultINV _ (iff_of_true rfl trivial)⟩
  case least =>
    obtain ⟨hge, hcongr, hleast⟩ := alignUp_spec (unsignedValue w q.a) (unsignedValue w q.c) h
    rw [responseOf, respAlignto_of_ne_zero h]
    exact ⟨_, hge, hcongr, hleast, zeroOnOverflow_spec w _⟩

/-! ## Rounding up to a multiple -/

/-- With skew 0, `alignUp` is the least multiple at or above the value. -/
theorem alignUp_zero_spec (v : Nat) {al : Nat} (h : al ≠ 0) :
    v ≤ alignUp v al 0 ∧ al ∣ alignUp v al 0 ∧ ∀ m : Nat, v ≤ m → al ∣ m → alignUp v al 0 ≤ m := by
  simpa [Int.natCast_dvd_natCast] using alignUp_spec v 0 h

/-- Rounding a multiple up does not move it. -/
theorem alignUp_of_dvd {v al : Nat} (h : al ≠ 0) (hd : al ∣ v) : alignUp v al 0 = v := by
  obtain ⟨hge, -, hleast⟩ := alignUp_zero_spec v h
  exact le_antisymm (hleast v le_rfl hd) hge

section
variable {w : Width} {q : Request}

theorem respAlignp2_of_not_two_pow (h : ¬ ∃ k, unsignedValue w q.b = 2 ^ k) :
    respAlignp2 w q = resultINV (writeU (unsignedValue w q.a)) true := by
  have hp : ispow2 (unsignedValue w q.b) = false := Bool.eq_false_iff.2 (mt (ispow2_iff _).1 h)
  simp only [respAlignp2, readU_eq, hp, Bool.not_false, if_true]

theorem alignUp_le_of_two_pow (h : ∃ k, unsignedValue w q.b = 2 ^ k) :
    alignUp (unsignedValue w q.a) (unsignedValue w q.b) 0 ≤ 2 ^ w.bits := by
  have hb := unsignedValue_lt w q.b
  obtain ⟨k, hk⟩ := h
  rw [hk] at hb ⊢
  exact alignUp_two_pow_le (unsignedValue_lt w q.a) hb

/-- For a power of two R carries the rounded value, cut at 64 bits, whether it fits in the width or not: the 0 that R162
gives for `2^64` is what its low 64 bits are. -/
theorem respAlignp2_of_two_pow (h : ∃ k, unsignedValue w q.b = 2 ^ k) :
    respAlignp2 w q = resultOV (writeU (alignUp (unsignedValue w q.a) (unsignedValue w q.b) 0))
      (exceedsUnsigned w (alignUp (unsignedValue w q.a) (unsignedValue w q.b) 0)) := by
  have hle := alignUp_le_of_two_pow h
  simp only [respAlignp2, readU_eq, (ispow2_iff _).2 h, Bool.not_true, Bool.false_eq_true, if_false]
  generalize alignUp (unsignedValue w q.a) (unsignedValue w q.b) 0 = m at *
  cases hov : exceedsUnsigned w m with
  | false => rfl
  | true =>
    rw [if_pos rfl]
    split
    next => rfl
    next h64 =>
      have hw : w.bits = 64 := le_antisymm w.bits_le (not_lt.1 h64)
      have hm : m = 2 ^ w.bits := le_antisymm hle ((exceedsUnsigned_iff w m).1 hov)
      rw [hm, hw]; rfl

end

theorem ne_zero_of_two_pow {x : Nat} (h : ∃ k, x = 2 ^ k) : x ≠ 0 := by
  obtain ⟨k, rfl⟩ := h
  exact (Nat.two_pow_pos k).ne'

/-- A value of at most `2^64` on R (R15). -/
theorem writeU_toNat_of_le {m : Nat} (h : m ≤ 2 ^ 64) : (writeU m).toNat = if m = 2 ^ 64 then 0 else m := by
  split
  next he => rw [he]; rfl
  next hne => exact writeU_toNat (lt_of_le_of_ne h hne)

/-- Settles O45: the least multiple of a power of two is at most `2^w`, which itself is one. -/
theorem alignp2RoundsUpAndKeepsTheCarry : Obligations.Alignp2RoundsUpAndKeepsTheCarry := by
  refine implements_of_operationAt (fun _ => rfl) fun w q => ⟨fun h => ?other, fun h => ?power⟩
  case other =>
    rw [responseOf, respAlignp2_of_not_two_pow h]
    exact ⟨writeU_toNat_of_width (unsignedValue_lt w q.a), onlyINV_resultINV _ (iff_of_true rfl trivial)⟩
  case power =>
    obtain ⟨hge, hdvd, hleast⟩ := alignUp_zero_spec (unsignedValue w q.a) (ne_zero_of_two_pow h)
    have hle := alignUp_le_of_two_pow (q := q) h
    rw [responseOf, respAlignp2_of_two_pow h]
    refine ⟨_, hge, hdvd, hleast, hle, writeU_toNat_of_le (hle.trans w.two_pow_bits_le), onlyOV_resultOV _ ?_⟩
    rw [exceedsUnsigned_iff]
    exact ⟨hle.antisymm, Eq.ge⟩

/-! ## Rounding down -/

section
variable {w : Width} {q : Request}

theorem respAligndn_of_zero (h : unsignedValue w q.b = 0) :
    respAligndn w q = resultINV (writeU (unsignedValue w q.a)) true := by
  simp only [respAligndn, readU_eq, if_pos h]

theorem respAligndn_of_ne_zero (h : unsignedValue w q.b ≠ 0) :
    respAligndn w q = result (writeU (unsignedValue w q.b * (unsignedValue w q.a / unsignedValue w q.b))) := by
  simp only [respAligndn, readU_eq, if_neg h, sub_emod_toNat]

theorem respAligndn_toNat_of_ne_zero (h : unsignedValue w q.b ≠ 0) :
    (respAligndn w q).r.toNat = unsignedValue w q.b * (unsignedValue w q.a / unsignedValue w q.b) := by
  rw [respAligndn_of_ne_zero h, result_r,
    writeU_toNat_of_width ((Nat.mul_div_le _ _).trans_lt (unsignedValue_lt w q.a))]

end

/-- Settles O46: `al × ⌊v / al⌋` is the greatest multiple of `al` at or below `v`. -/
theorem aligndnIsTheGreatestMultiple : Obligations.AligndnIsTheGreatestMultiple := by
  refine implements_of_operationAt (fun _ => rfl) fun w q =>
    ⟨fun h => ?zero, fun h => ?greatest, ?flags⟩ <;> rw [responseOf]
  case zero =>
    rw [respAligndn_of_zero h, resultINV_r, writeU_toNat_of_width (unsignedValue_lt w q.a)]
  case greatest =>
    rw [respAligndn_toNat_of_ne_zero h]
    refine ⟨Nat.dvd_mul_right _ _, Nat.mul_div_le _ _, fun m hm hd => ?_⟩
    calc m = unsignedValue w q.b * (m / unsignedValue w q.b) := (Nat.mul_div_cancel' hd).symm
      _ ≤ _ := Nat.mul_le_mul_left _ (Nat.div_le_div_right hm)
  case flags =>
    by_cases h : unsignedValue w q.b = 0
    · rw [respAligndn_of_zero h]
      exact onlyINV_resultINV _ (iff_of_true rfl h)
    · rw [respAligndn_of_ne_zero h]
      exact onlyINV_resultINV _ (iff_of_false Bool.false_ne_true h)

/-! ## Rounding again, and the two ways of rounding up -/

section
variable {w : Width} {q : Request} (hb : unsignedValue w q.b ≠ 0) (hc : unsignedValue w q.c = 0)
include hb hc

/-- With skew 0 the R of ALIGNTO is a multiple of align that fits in the width, with or without OV. -/
theorem respAlignto_multiple :
    (respAlignto w q).r.toNat < 2 ^ w.bits ∧ unsignedValue w q.b ∣ (respAlignto w q).r.toNat := by
  obtain ⟨-, hdvd, -⟩ := alignUp_zero_spec (unsignedValue w q.a) hb
  rw [respAlignto_of_ne_zero hb, hc, (zeroOnOverflow_spec w _).1]
  split
  next h => exact ⟨h, hdvd⟩
  next => exact ⟨Nat.two_pow_pos _, dvd_zero _⟩

/-- ALIGNTO leaves a multiple as it is, with no flag. -/
theorem respAlignto_of_dvd (hd : unsignedValue w q.b ∣ unsignedValue w q.a) :
    respAlignto w q = result (writeU (unsignedValue w q.a)) := by
  rw [respAlignto_of_ne_zero hb, hc, alignUp_of_dvd hb hd, zeroOnOverflow_of_lt (unsignedValue_lt w q.a)]

end

/-- Settles O47: R is a multiple of align that fits, with or without OV, and the residue left out is below the align. -/
theorem alignmentIdempotence : Obligations.AlignmentIdempotence := by
  intro w q q' hb hc hqa hqb hqc
  have hdn := respAligndn_toNat_of_ne_zero (q := q) hb
  have hsum := Nat.div_add_mod (unsignedValue w q.a) (unsignedValue w q.b)
  have hres := Nat.mod_lt (unsignedValue w q.a) (Nat.pos_of_ne_zero hb)
  obtain ⟨hlt, hdvd⟩ := respAlignto_multiple hb hc
  have hval : unsignedValue w q'.a = (respAlignto w q).r.toNat := by
    rw [hqa]; exact unsignedValue_of_lt hlt
  have hagain : respAlignto w q' = result (respAlignto w q).r := by
    rw [respAlignto_of_dvd (hqb ▸ hb) (hqc ▸ hc) (by rw [hqb, hval]; exact hdvd), hval, writeU, BitVec.ofNat_toNat,
      BitVec.setWidth_eq]
  simp only [responseOf, hagain]
  exact ⟨rfl, rfl, by omega, by omega⟩

/-- Settles O48: both round up to the same multiple, and one of a power of two that does not fit is `2^w`. -/
theorem aligntoAndAlignp2Agree : Obligations.AligntoAndAlignp2Agree := by
  intro w q hc
  simp only [responseOf]
  refine ⟨fun hp => ?power, fun hb hp => ?other⟩
  case power =>
    have hb := ne_zero_of_two_pow hp
    have hle := alignUp_le_of_two_pow (q := q) hp
    rw [noAlignedValueFits_iff w _ 0 hb, respAlignto_of_ne_zero hb, hc, respAlignp2_of_two_pow hp]
    generalize alignUp (unsignedValue w q.a) (unsignedValue w q.b) 0 = m at *
    refine ⟨fun hfits => ?_, fun hover => ?_⟩
    · have hov : exceedsUnsigned w m = false := Bool.eq_false_iff.2 (mt (exceedsUnsigned_iff w m).1 hfits)
      rw [zeroOnOverflow_of_lt (not_le.1 hfits), hov]
      exact ⟨rfl, noFlags_result _, noFlags_result _⟩
    · rw [zeroOnOverflow_of_ge hover]
      refine ⟨rfl, rfl, (exceedsUnsigned_iff w m).2 hover, fun h64 => ?_⟩
      rw [hle.antisymm hover]
      exact writeU_toNat (Nat.pow_lt_pow_right (by decide) h64)
  case other =>
    obtain ⟨-, -, hinv, -⟩ := zeroOnOverflow_spec w
      (alignUp (unsignedValue w q.a) (unsignedValue w q.b) (unsignedValue w q.c))
    rw [respAlignto_of_ne_zero hb, respAlignp2_of_not_two_pow hp]
    exact ⟨hinv, rfl⟩

end Sys2Proof.Machine
end

section
/-! PROOFS. Division and modulo: the nearest, rounded-up and rounded-down quotients, the quotient that overflows, and the
residue (43_division.md R180 to R187). -/

namespace Sys2Proof.Machine

/-! ## The INV of a zero divisor, and no flag of another -/

theorem onlyINV_zeroDivisor {p : Prop} (h : p) : OnlyINV zeroDivisor p := onlyINV_resultINV _ (iff_of_true rfl h)

theorem onlyINV_result (r : Word) {p : Prop} (h : ¬ p) : OnlyINV (result r) p :=
  onlyINV_resultINV r (iff_of_false Bool.false_ne_true h)

/-! ## The nearest unsigned quotient -/

theorem fdiv_natCast (a b : Nat) : fdiv a b = (a / b : Nat) := (Int.ofNat_fdiv a b).symm

/-- Half a divisor more, rounded down, is the nearest integer with ties up: both are `⌊(2a + b) / 2b⌋` (R180). -/
theorem nearest_eq_floor (a : Nat) {b : Nat} (hb : b ≠ 0) : (((a + b / 2) / b : Nat) : Int) = ⌊(a : ℚ) / b + 1 / 2⌋ := by
  have hq : (b : ℚ) ≠ 0 := Nat.cast_ne_zero.2 hb
  have hhalf : a + b / 2 = (2 * a + b) / 2 := by omega
  have hexact : (a : ℚ) / b + 1 / 2 = ((2 * a + b : Nat) : ℚ) / (2 * b : Nat) := by
    push_cast; field_simp
  rw [hexact, Rat.floor_natCast_div_natCast, hhalf, Nat.div_div_eq_div_mul]
  rfl

/-- The nearest quotient is at most the dividend. -/
theorem nearest_le (a : Nat) {b : Nat} (hb : b ≠ 0) : (a + b / 2) / b ≤ a := by
  have hmul : a ≤ a * b := Nat.le_mul_of_pos_right a (Nat.pos_of_ne_zero hb)
  rw [← Nat.lt_succ_iff, Nat.div_lt_iff_lt_mul (Nat.pos_of_ne_zero hb), Nat.succ_mul]
  omega

section
variable {w : Width} {q : Request}

theorem respDivnear_of_zero (h : unsignedValue w q.b = 0) : respDivnear w q = zeroDivisor := by
  simp only [respDivnear, readU_eq, if_pos h]

theorem respDivnear_of_ne_zero (h : unsignedValue w q.b ≠ 0) : respDivnear w q =
    result (writeU ((unsignedValue w q.a + unsignedValue w q.b / 2) / unsignedValue w q.b)) := by
  have hfdiv : fdiv (unsignedValue w q.a + fdiv (unsignedValue w q.b) 2) (unsignedValue w q.b) =
      ((unsignedValue w q.a + unsignedValue w q.b / 2) / unsignedValue w q.b : Nat) := by
    have htwo : fdiv (unsignedValue w q.b) 2 = (unsignedValue w q.b / 2 : Nat) := fdiv_natCast _ 2
    rw [htwo, ← Nat.cast_add, fdiv_natCast]
  simp only [respDivnear, readU_eq, if_neg h, hfdiv, Int.toNat_natCast]

theorem respDivnear_toNat_of_ne_zero (h : unsignedValue w q.b ≠ 0) : (respDivnear w q).r.toNat =
    (unsignedValue w q.a + unsignedValue w q.b / 2) / unsignedValue w q.b := by
  rw [respDivnear_of_ne_zero h, result_r,
    writeU_toNat_of_width ((nearest_le _ h).trans_lt (unsignedValue_lt w q.a))]

end

/-- Settles O49: `(a + b/2) / b` is the nearest quotient and fits in the width. -/
theorem divnearIsTheNearestQuotient : Obligations.DivnearIsTheNearestQuotient := by
  refine implements_of_operationAt (fun _ => rfl) fun w q => ?_
  rw [responseOf]
  by_cases h : unsignedValue w q.b = 0
  · rw [respDivnear_of_zero h]
    exact ⟨fun _ => rfl, fun hb => absurd h hb, onlyINV_zeroDivisor h⟩
  · refine ⟨fun hb => absurd hb h, fun _ => ?_, ?_⟩
    · rw [respDivnear_toNat_of_ne_zero h]
      exact ⟨nearest_eq_floor _ h, rfl⟩
    · rw [respDivnear_of_ne_zero h]
      exact onlyINV_result _ h

/-! ## The unsigned quotient rounded up -/

/-- The quotient of two natural numbers rounded up lies between 0 and the dividend. -/
theorem cdiv_natCast_bounds (a : Nat) {b : Nat} (hb : b ≠ 0) : 0 ≤ cdiv a b ∧ cdiv a b ≤ a := by
  have hone : (1 : ℚ) ≤ b := Nat.one_le_cast.2 (Nat.pos_of_ne_zero hb)
  rw [cdiv_eq_ceil a (Int.natCast_ne_zero.2 hb), Int.ceil_le]
  push_cast
  exact ⟨Int.ceil_nonneg (by positivity), div_le_self (Nat.cast_nonneg a) hone⟩

section
variable {w : Width} {q : Request}

theorem respDivceil_of_zero (h : unsignedValue w q.b = 0) : respDivceil w q = zeroDivisor := by
  simp only [respDivceil, readU_eq, if_pos h]

theorem respDivceil_of_ne_zero (h : unsignedValue w q.b ≠ 0) :
    respDivceil w q = result (writeU (cdiv (unsignedValue w q.a) (unsignedValue w q.b)).toNat) := by
  simp only [respDivceil, readU_eq, if_neg h]

theorem respDivceil_toNat_of_ne_zero (h : unsignedValue w q.b ≠ 0) :
    ((respDivceil w q).r.toNat : Int) = cdiv (unsignedValue w q.a) (unsignedValue w q.b) := by
  obtain ⟨hnonneg, hle⟩ := cdiv_natCast_bounds (unsignedValue w q.a) h
  have hlt := unsignedValue_lt w q.a
  rw [respDivceil_of_ne_zero h, result_r, writeU_toNat_of_width (w := w) (by omega), Int.toNat_of_nonneg hnonneg]

end

/-- Settles O50: the ceiling is at most the dividend, so it fits in the width. -/
theorem divceilIsTheCeiling : Obligations.DivceilIsTheCeiling := by
  refine implements_of_operationAt (fun _ => rfl) fun w q => ?_
  rw [responseOf]
  by_cases h : unsignedValue w q.b = 0
  · rw [respDivceil_of_zero h]
    exact ⟨fun _ => rfl, fun hb => absurd h hb, onlyINV_zeroDivisor h⟩
  · refine ⟨fun hb => absurd hb h, fun _ => ?_, ?_⟩
    · rw [respDivceil_toNat_of_ne_zero h, cdiv_eq_ceil _ (Int.natCast_ne_zero.2 h), Int.cast_natCast, Int.cast_natCast]
    · rw [respDivceil_of_ne_zero h]
      exact onlyINV_result _ h

/-! ## The signed quotients -/

/-- The one pair of signed operands whose quotient does not fit in the width (R182 to R184). -/
def DivisionOverflows (w : Width) (q : Request) : Prop :=
  signedValue w q.a = -2 ^ (w.bits - 1) ∧ signedValue w q.b = -1

/-- What DIVCEILS and DIVFLOORS have in common: their response where `c` is the quotient rounded their way (R182, R183). -/
def signedQuotient (w : Width) (q : Request) (c : Int) : Response :=
  if signedValue w q.b = 0 then zeroDivisor
  else if quotientOverflows w (signedValue w q.a) (signedValue w q.b) then resultOV (writeS w (sMin w)) true
  else result (writeS w c)

section
variable (w : Width) (q : Request)

theorem respDivceils_eq :
    respDivceils w q = signedQuotient w q (cdiv (signedValue w q.a) (signedValue w q.b)) := by
  simp only [respDivceils, readS_eq, signedQuotient]

theorem respDivfloors_eq :
    respDivfloors w q = signedQuotient w q (fdiv (signedValue w q.a) (signedValue w q.b)) := by
  simp only [respDivfloors, readS_eq, signedQuotient]

end

section
variable {w : Width} {q : Request} {c : Int}

theorem signedQuotient_of_zero (h : signedValue w q.b = 0) : signedQuotient w q c = zeroDivisor := if_pos h

theorem signedQuotient_of_overflow (h : DivisionOverflows w q) :
    signedQuotient w q c = resultOV (writeS w (sMin w)) true := by
  have hb : signedValue w q.b ≠ 0 := by rw [h.2]; decide
  rw [signedQuotient, if_neg hb, if_pos ((quotientOverflows_iff w _ _).2 h)]

theorem signedQuotient_of_fits (hb : signedValue w q.b ≠ 0) (h : ¬ DivisionOverflows w q) :
    signedQuotient w q c = result (writeS w c) := by
  rw [signedQuotient, if_neg hb, if_neg (mt (quotientOverflows_iff w _ _).1 h)]

theorem signedQuotient_ov_iff : (signedQuotient w q c).ov = true ↔ DivisionOverflows w q := by
  by_cases h : DivisionOverflows w q
  · rw [signedQuotient_of_overflow h]
    exact iff_of_true rfl h
  · refine iff_of_false ?_ h
    by_cases hb : signedValue w q.b = 0
    · rw [signedQuotient_of_zero hb]
      exact Bool.false_ne_true
    · rw [signedQuotient_of_fits hb h]
      exact Bool.false_ne_true

end

theorem writeS_sMin_toInt (w : Width) : (writeS w (sMin w)).toInt = -2 ^ (w.bits - 1) :=
  writeS_toInt ⟨le_rfl, (neg_lt_zero.2 (by positivity)).trans (by positivity)⟩

/-- A signed division that rounds by `round` answers as R182 and R183 say, if what it rounds to fits where the quotient does
not overflow. -/
theorem signedQuotient_spec {w : Width} {q : Request} {c : Int} {round : ℚ → Int}
    (hround : signedValue w q.b ≠ 0 → c = round ((signedValue w q.a : ℚ) / signedValue w q.b))
    (hfits : signedValue w q.b ≠ 0 → ¬ DivisionOverflows w q → -2 ^ (w.bits - 1) ≤ c ∧ c < 2 ^ (w.bits - 1)) :
    (signedValue w q.b = 0 → (signedQuotient w q c).r = 0 ∧ OnlyINV (signedQuotient w q c) True) ∧
    (signedValue w q.b ≠ 0 → DivisionOverflows w q →
      (signedQuotient w q c).r.toInt = -2 ^ (w.bits - 1) ∧ OnlyOV (signedQuotient w q c) True) ∧
    (signedValue w q.b ≠ 0 → ¬ DivisionOverflows w q →
      (signedQuotient w q c).r.toInt = round ((signedValue w q.a : ℚ) / signedValue w q.b) ∧
        NoFlags (signedQuotient w q c)) := by
  refine ⟨fun hb => ?zero, fun _ h => ?overflow, fun hb h => ?fits⟩
  case zero =>
    rw [signedQuotient_of_zero hb]
    exact ⟨rfl, onlyINV_zeroDivisor trivial⟩
  case overflow =>
    rw [signedQuotient_of_overflow h]
    exact ⟨writeS_sMin_toInt w, onlyOV_resultOV _ (iff_of_true rfl trivial)⟩
  case fits =>
    rw [signedQuotient_of_fits hb h, ← hround hb]
    exact ⟨writeS_toInt (hfits hb h), noFlags_result _⟩

/-- Settles O51: each rounds the exact quotient its way, and fits unless the operands are the pair that overflows. -/
theorem signedDivisionsRoundExactly : Obligations.SignedDivisionsRoundExactly := by
  refine ⟨implements_of_operationAt (fun _ => rfl) fun w q => ?ceil,
    implements_of_operationAt (fun _ => rfl) fun w q => ?floor⟩
  case ceil =>
    rw [responseOf, respDivceils_eq]
    exact signedQuotient_spec (cdiv_eq_ceil _) (cdiv_fits (signedValue_bounds w q.a))
  case floor =>
    rw [responseOf, respDivfloors_eq]
    exact signedQuotient_spec (fdiv_eq_floor _) (fdiv_fits (signedValue_bounds w q.a))

/-! ## The quotient that overflows -/

theorem writeB_eq_one_iff (b : Bool) : writeB b = 1 ↔ b = true := by cases b <;> decide

theorem respDivsovf_eq (w : Width) (q : Request) :
    respDivsovf w q = result (writeB (quotientOverflows w (signedValue w q.a) (signedValue w q.b))) := by
  rw [respDivsovf, readS_eq, readS_eq]

theorem respDivsovf_eq_one_iff (w : Width) (q : Request) : (respDivsovf w q).r = 1 ↔ DivisionOverflows w q := by
  rw [respDivsovf_eq, result_r, writeB_eq_one_iff]
  exact quotientOverflows_iff w _ _

/-- Settles O52: DIVSOVF and the OV of both signed divisions test for the same pair. -/
theorem divsovfPredictsTheOverflow : Obligations.DivsovfPredictsTheOverflow := by
  refine ⟨implements_of_operationAt (fun _ => rfl) fun w q => ?answers, fun w q => ?overflow⟩
  case answers =>
    rw [responseOf, respDivsovf_eq]
    exact ⟨writeB_answers (quotientOverflows_iff w _ _), noFlags_result _⟩
  case overflow =>
    simp only [responseOf, respDivsovf_eq_one_iff, respDivceils_eq, respDivfloors_eq, signedQuotient_ov_iff,
      and_self]

/-! ## The residue -/

section
variable {w : Width} {q : Request}

theorem respMod_of_zero (h : signedValue w q.b = 0) : respMod w q = zeroDivisor := by
  simp only [respMod, readS_eq, if_pos h]

theorem respMod_of_ne_zero (h : signedValue w q.b ≠ 0) : respMod w q =
    resultINV (writeS w (signedValue w q.a % signedValue w q.b)) (decide (signedValue w q.b < 0)) := by
  simp only [respMod, readS_eq, if_neg h, emod_eq]

/-- R carries the Euclidean residue, which is below the absolute value of a signed divisor and so fits (R185). -/
theorem respMod_toInt_of_ne_zero (h : signedValue w q.b ≠ 0) :
    (respMod w q).r.toInt = signedValue w q.a % signedValue w q.b := by
  obtain ⟨hlo, hhi⟩ := signedValue_bounds w q.b
  have hnonneg := Int.emod_nonneg (signedValue w q.a) h
  have hlt := Int.emod_lt_abs (signedValue w q.a) h
  have habs := abs_le.2 ⟨hlo, hhi.le⟩
  rw [respMod_of_ne_zero h, resultINV_r, writeS_toInt ⟨by omega, hlt.trans_le habs⟩]

theorem respMod_onlyINV : OnlyINV (respMod w q) (signedValue w q.b ≤ 0) := by
  by_cases h : signedValue w q.b = 0
  · rw [respMod_of_zero h]
    exact onlyINV_zeroDivisor h.le
  · rw [respMod_of_ne_zero h]
    exact onlyINV_resultINV _ (decide_eq_true_iff.trans (lt_iff_le_and_ne.trans (and_iff_left h)))

/-- For a positive divisor R carries the Euclidean quotient, with no overflow (R183). -/
theorem respDivfloors_toInt_of_pos (h : 0 < signedValue w q.b) :
    (respDivfloors w q).r.toInt = signedValue w q.a / signedValue w q.b := by
  have hfits : ¬ DivisionOverflows w q := fun hov => by rw [hov.2] at h; exact absurd h (by decide)
  rw [respDivfloors_eq, signedQuotient_of_fits h.ne' hfits, result_r,
    writeS_toInt (fdiv_fits (signedValue_bounds w q.a) h.ne' hfits), fdiv, Int.fdiv_eq_ediv_of_nonneg _ h.le]

end

/-- Settles O53: MOD is the Euclidean residue, and for `b > 0` DIVFLOORS the Euclidean quotient. -/
theorem modIsTheNonNegativeResidue : Obligations.ModIsTheNonNegativeResidue := by
  refine ⟨implements_of_operationAt (fun _ => rfl) fun w q => ⟨fun h => ?zero, fun h => ?residue, respMod_onlyINV⟩,
    fun w q h => ?identity⟩
  case zero => rw [responseOf, respMod_of_zero h]; rfl
  case residue =>
    rw [responseOf, respMod_toInt_of_ne_zero h]
    exact ⟨Int.emod_nonneg _ h, Int.emod_lt_abs _ h, Int.dvd_self_sub_emod⟩
  case identity =>
    rw [responseOf, responseOf, respDivfloors_toInt_of_pos h, respMod_toInt_of_ne_zero h.ne', Int.mul_ediv_add_emod]

/-! ## Ceiling, floor and residue together -/

/-- The quotient rounded up exceeds the Euclidean one by 1 where there is a residue. -/
theorem cdiv_eq_ediv_add {a b : Int} (hb : 0 < b) : cdiv a b = a / b + if a % b ≠ 0 then 1 else 0 := by
  rw [cdiv, Int.fdiv_eq_ediv_of_nonneg _ hb.le, Int.neg_ediv, Int.sign_eq_one_of_pos hb]
  simp only [Int.dvd_iff_emod_eq_zero, ite_not]
  split <;> omega

/-- Settles O54: the operands read the same signed and unsigned, so all three commands divide the same numbers. -/
theorem divisionConsistency : Obligations.DivisionConsistency := by
  intro w q ha hb
  have hu : unsignedValue w q.b ≠ 0 := by
    have := signedValue_of_nonneg hb.le
    omega
  have hres : (respMod w q).r ≠ 0 ↔ signedValue w q.a % signedValue w q.b ≠ 0 := by
    rw [← respMod_toInt_of_ne_zero hb.ne', Ne, ← BitVec.toInt_inj]; rfl
  simp only [responseOf, hres]
  rw [respDivceil_toNat_of_ne_zero hu, ← signedValue_of_nonneg ha, ← signedValue_of_nonneg hb.le,
    respDivfloors_toInt_of_pos hb, respMod_toInt_of_ne_zero hb.ne']
  exact ⟨cdiv_eq_ediv_add hb, Int.emod_nonneg _ hb.ne', Int.emod_lt_of_pos _ hb⟩

end Sys2Proof.Machine
end

section
/-! PROOFS. The saturating and checked arithmetic (44_overflow_arith.md R200 to R210): every saturating command narrows one
exact result by `saturated` and every checked one by `wrapped`, so the two laws of these say what the commands answer. -/

namespace Sys2Proof.Machine

/-! ## What a saturated result says of the exact one -/

section
variable {w : Width} {r : Response} {z : Nat}

theorem saturates_of_eq (h : r = saturated w z) : Saturates w r z := h ▸ saturated_saturates w z

/-- R206: without OV the result is exact, with OV it is the maximum. -/
theorem Saturates.exact (h : Saturates w r z) :
    (r.ov = false → r.r.toNat = z) ∧ (r.ov = true → r.r.toNat = 2 ^ w.bits - 1) := by
  obtain ⟨hr, hov, -⟩ := h
  refine ⟨fun hfalse => ?_, fun htrue => ?_⟩
  · have hfits : ¬ 2 ^ w.bits ≤ z := fun hz => by simp [hov.2 hz] at hfalse
    omega
  · have := hov.1 htrue
    omega

/-- OV is what tells the result from the exact one (R207). -/
theorem Saturates.ov_iff (h : Saturates w r z) : r.ov = true ↔ r.r.toNat ≠ z := by
  obtain ⟨hr, hov, -⟩ := h
  have := Nat.two_pow_pos w.bits
  rw [hov, hr]
  omega

/-- What fits in the width and is at most the exact result is at most the saturated one. -/
theorem Saturates.le {x : Nat} (h : Saturates w r z) (hx : x < 2 ^ w.bits) (hxz : x ≤ z) : x ≤ r.r.toNat := by
  rw [h.1]
  omega

end

/-! ## Saturating step by step -/

section
variable (w : Width)

/-- Both branches of `saturated` in one: R is the lesser of the result and the maximum. -/
theorem saturated_eq (z : Nat) : saturated w z = resultOV (writeU (min z (uMax w))) (exceedsUnsigned w z) := by
  rcases lt_or_ge z (2 ^ w.bits) with h | h
  · have hov : exceedsUnsigned w z = false := Bool.eq_false_iff.2 (mt (exceedsUnsigned_iff w z).1 h.not_ge)
    rw [saturated_of_lt h, hov, min_eq_left (not_lt.1 (mt (uMax_lt_iff w z).1 h.not_ge))]
    rfl
  · rw [saturated_of_ge h, (exceedsUnsigned_iff w z).2 h, min_eq_right ((uMax_lt_iff w z).2 h).le]

theorem unsignedValue_saturated (z : Nat) : unsignedValue w (saturated w z).r = min z (uMax w) := by
  have hlt : min z (uMax w) < 2 ^ w.bits :=
    (min_le_right _ _).trans_lt (Nat.sub_lt (Nat.two_pow_pos _) Nat.one_pos)
  rw [saturated_eq, resultOV_r, unsignedValue_writeU hlt]

/-- A sum may be saturated before its last operand is added, if the overflows are joined (R200). -/
theorem saturated_add (x y : Nat) :
    (saturated w (x + y)).r = (saturated w (unsignedValue w (saturated w x).r + y)).r ∧
    (saturated w (x + y)).ov = ((saturated w x).ov || (saturated w (unsignedValue w (saturated w x).r + y)).ov) := by
  have hmin : min (x + y) (uMax w) = min (min x (uMax w) + y) (uMax w) := by omega
  rw [unsignedValue_saturated]
  simp only [saturated_eq, resultOV, hmin, exceedsUnsigned, true_and, ← Bool.decide_or, decide_eq_decide]
  omega

end

/-! ## SATADD -/

section
variable (w : Width) (q : Request)

theorem respSatadd_two : respSatadd w 2 q = saturated w (unsignedValue w q.a + unsignedValue w q.b) := by
  simp [respSatadd, readU_eq]

theorem respSatadd_three :
    respSatadd w 3 q = saturated w (unsignedValue w q.a + unsignedValue w q.b + unsignedValue w q.c) := by
  simp [respSatadd, readU_eq]

theorem respSatadd_four : respSatadd w 4 q =
    saturated w (unsignedValue w q.a + unsignedValue w q.b + unsignedValue w q.c + unsignedValue w q.d) := by
  simp [respSatadd, readU_eq]

end

/-- At every width the word of SATADD with an ARITY other than 3 decodes to SATADD of ARITY + 2 operands (R73). -/
theorem decode_sataddWord (w : Width) {arity : BitVec 2} (h : arity.toNat ≠ 3) :
    decode (fieldsWord 0 0 0 arity (wselBits w) 0x28) = .ok (.satadd w (arity.toNat + 2)) := by
  rw [fieldsWord_eq_commandWord]
  exact FieldsOf.decode_commandWord ⟨by decide, arity.isLt, by decide, by decide, rfl, fun ho => absurd rfl ho,
    fun _ => h, fun _ => ⟨rfl, rfl⟩⟩

/-- ARITY 3 is illegal on SATADD (R73). -/
theorem decode_sataddWord_arityThree (w : Width) :
    decode (fieldsWord 0 0 0 3 (wselBits w) 0x28) = .error .arityThree := by
  cases w <;> decide

/-- Settles O55: SATADD saturates the exact sum once, and `saturated_add` takes the fold apart, one operand at a time. -/
theorem sataddSaturatesTheWholeSum : Obligations.SataddSaturatesTheWholeSum := by
  refine ⟨fun w => ⟨⟨decode_sataddWord w (by decide), completes_of_responseOf fun q => ?two⟩,
    ⟨decode_sataddWord w (by decide), completes_of_responseOf fun q => ?three⟩,
    ⟨decode_sataddWord w (by decide), completes_of_responseOf fun q => ?four⟩,
    _, decode_sataddWord_arityThree w⟩, fun w q q3 q4 ha3 hb3 ha4 hb4 => ?fold⟩
  case two => exact saturates_of_eq (respSatadd_two w q)
  case three => exact saturates_of_eq (respSatadd_three w q)
  case four => exact saturates_of_eq (respSatadd_four w q)
  case fold =>
    simp only [responseOf] at ha3 ha4 ⊢
    obtain ⟨hr3, hov3⟩ := saturated_add w (unsignedValue w q.a + unsignedValue w q.b) (unsignedValue w q.c)
    rw [← respSatadd_three, ← respSatadd_two w q, ← ha3, ← hb3, ← respSatadd_two] at hr3 hov3
    obtain ⟨hr4, hov4⟩ := saturated_add w
      (unsignedValue w q.a + unsignedValue w q.b + unsignedValue w q.c) (unsignedValue w q.d)
    rw [← respSatadd_four, ← respSatadd_three, hr3, ← ha4, ← hb4, ← respSatadd_two] at hr4 hov4
    exact ⟨hr3, hov3, hr4, hov3 ▸ hov4⟩

/-! ## SATMUL and SATMAD -/

theorem respSatmul_eq (w : Width) (q : Request) :
    respSatmul w q = saturated w (unsignedValue w q.a * unsignedValue w q.b) := by
  rw [respSatmul, readU_eq, readU_eq]

/-- The two stages of SATMAD saturate as one: where the product overflows, so does the sum (R202). -/
theorem respSatmad_eq (w : Width) (q : Request) :
    respSatmad w q = saturated w (unsignedValue w q.a * unsignedValue w q.b + unsignedValue w q.c) := by
  simp only [respSatmad, readU_eq]
  split
  next hov => rw [saturated_of_ge (((exceedsUnsigned_iff w _).1 hov).trans (Nat.le_add_right _ _))]
  next => rfl

/-- Settles O56: SATMUL saturates the exact product. -/
theorem satmulSaturatesTheProduct : Obligations.SatmulSaturatesTheProduct :=
  implements_of_operationAt (fun _ => rfl) fun w q => saturates_of_eq (respSatmul_eq w q)

/-- Settles O57: the two stages of SATMAD are one saturation of the exact `a × b + c`. -/
theorem satmadSaturatesProductAndSum : Obligations.SatmadSaturatesProductAndSum :=
  implements_of_operationAt (fun _ => rfl) fun w q => saturates_of_eq (respSatmad_eq w q)

/-! ## ADDO, SUBO, MULO -/

section
variable (w : Width) (q : Request)

theorem respAddo_eq : respAddo w q = wrapped w (signedValue w q.a + signedValue w q.b) := by
  rw [respAddo, readS_eq, readS_eq]

theorem respSubo_eq : respSubo w q = wrapped w (signedValue w q.a - signedValue w q.b) := by
  rw [respSubo, readS_eq, readS_eq]

theorem respMulo_eq : respMulo w q = wrapped w (signedValue w q.a * signedValue w q.b) := by
  rw [respMulo, readS_eq, readS_eq]

end

theorem wrapsAround_of_eq {w : Width} {r : Response} {z : Int} (h : r = wrapped w z) : WrapsAround w r z :=
  h ▸ wrapped_wraps w z

/-- Settles O58: each checked command wraps its exact result. -/
theorem checkedArithmeticWrapsAround : Obligations.CheckedArithmeticWrapsAround :=
  ⟨implements_of_operationAt (fun _ => rfl) fun w q => wrapsAround_of_eq (respAddo_eq w q),
    implements_of_operationAt (fun _ => rfl) fun w q => wrapsAround_of_eq (respSubo_eq w q),
    implements_of_operationAt (fun _ => rfl) fun w q => wrapsAround_of_eq (respMulo_eq w q)⟩

/-! ## Exactness, monotonicity and bit lengths -/

/-- Settles O59: all five forms saturate an exact result, and that alone decides what R and OV say of it. -/
theorem saturationInvariantAndMonotonicity : Obligations.SaturationInvariantAndMonotonicity := by
  intro w q
  simp only [responseOf, respSatadd_two, respSatadd_three, respSatadd_four, respSatmul_eq, respSatmad_eq]
  have hsum := saturated_saturates w (unsignedValue w q.a + unsignedValue w q.b)
  exact ⟨hsum.exact, (saturated_saturates w _).exact, (saturated_saturates w _).exact, (saturated_saturates w _).exact,
    (saturated_saturates w _).exact, hsum.le (unsignedValue_lt w q.a) (Nat.le_add_right _ _),
    hsum.le (unsignedValue_lt w q.b) (Nat.le_add_left _ _), hsum.ov_iff⟩

theorem respSatmul_ov_iff (w : Width) (q : Request) :
    (respSatmul w q).ov = true ↔ 2 ^ w.bits ≤ unsignedValue w q.a * unsignedValue w q.b := by
  rw [respSatmul_eq]
  exact (saturated_saturates w _).2.1

theorem eight_le_bits (w : Width) : 8 ≤ w.bits := by cases w <;> decide

/-- The product of two numbers lies between the powers of two that their highest 1 bits, at `i` and `j`, give. -/
theorem mul_two_pow_bounds {x y i j : Nat} (hx : 2 ^ i ≤ x ∧ x < 2 ^ (i + 1)) (hy : 2 ^ j ≤ y ∧ y < 2 ^ (j + 1)) :
    2 ^ (i + j) ≤ x * y ∧ x * y < 2 ^ (i + j + 2) := by
  refine ⟨?_, ?_⟩
  · calc 2 ^ (i + j) = 2 ^ i * 2 ^ j := pow_add 2 i j
      _ ≤ x * y := Nat.mul_le_mul hx.1 hy.1
  · calc x * y < 2 ^ (i + 1) * 2 ^ (j + 1) := Nat.mul_lt_mul'' hx.2 hy.2
      _ = 2 ^ (i + j + 2) := by ring

/-- A request for the product of two numbers. -/
def productRequest (x y : Nat) : Request := { cmd := 0, a := writeU x, b := writeU y, c := 0, d := 0 }

/-- Two numbers in the class `i + j = w − 1` stand on the ports as they are, and their product decides OV. -/
theorem exists_request_of_factors {w : Width} {x y i j : Nat} {ov : Bool} (hx : 2 ^ i ≤ x ∧ x < 2 ^ (i + 1))
    (hy : 2 ^ j ≤ y ∧ y < 2 ^ (j + 1)) (hij : i + j = w.bits - 1) (hov : ov = true ↔ 2 ^ w.bits ≤ x * y) :
    ∃ (q : Request) (i j : Nat), 2 ^ i ≤ unsignedValue w q.a ∧ unsignedValue w q.a < 2 ^ (i + 1) ∧
      2 ^ j ≤ unsignedValue w q.b ∧ unsignedValue w q.b < 2 ^ (j + 1) ∧ i + j = w.bits - 1 ∧ (respSatmul w q).ov = ov := by
  have hw := w.bits_pos
  have ha : unsignedValue w (productRequest x y).a = x :=
    unsignedValue_writeU (hx.2.trans_le (Nat.pow_le_pow_right (by decide) (by omega)))
  have hb : unsignedValue w (productRequest x y).b = y :=
    unsignedValue_writeU (hy.2.trans_le (Nat.pow_le_pow_right (by decide) (by omega)))
  refine ⟨productRequest x y, i, j, ?_⟩
  rw [Bool.eq_iff_iff, hov, respSatmul_ov_iff, ha, hb]
  exact ⟨hx.1, hx.2, hy.1, hy.2, hij, Iff.rfl⟩

/-- Settles O60: outside the class `i + j = w − 1` the bounds of the product decide; in it `1 × 2^(w−1)` fits and
`3 × (3 × 2^(w−3))` does not. -/
theorem satmulBitLengthClasses : Obligations.SatmulBitLengthClasses := by
  refine ⟨fun w q i j hi hi' hj hj' => ?sure, fun w ov => ?unsure⟩
  case sure =>
    obtain ⟨hlo, hhi⟩ := mul_two_pow_bounds ⟨hi, hi'⟩ ⟨hj, hj'⟩
    refine ⟨fun hsmall => Bool.eq_false_iff.2 fun hov => ?_, fun hlarge => ?_⟩
    · have hpow : 2 ^ (i + j + 2) ≤ 2 ^ w.bits :=
        Nat.pow_le_pow_right (by decide) (by have := eight_le_bits w; omega)
      exact absurd ((respSatmul_ov_iff w q).1 hov) (hhi.trans_le hpow).not_ge
    · exact (respSatmul_ov_iff w q).2 ((Nat.pow_le_pow_right (by decide) hlarge).trans hlo)
  case unsure =>
    obtain ⟨n, hn⟩ : ∃ n, w.bits = n + 3 := ⟨w.bits - 3, by have := eight_le_bits w; omega⟩
    have hpos := Nat.two_pow_pos n
    cases ov with
    | false =>
      refine exists_request_of_factors (x := 1) (y := 2 ^ (n + 2)) (i := 0) (j := n + 2) ?_ ?_ ?_ ?_ <;>
        simp only [hn, pow_succ, pow_zero, Bool.false_eq_true, false_iff] <;> omega
    | true =>
      refine exists_request_of_factors (x := 3) (y := 3 * 2 ^ n) (i := 1) (j := n + 1) ?_ ?_ ?_ ?_ <;>
        simp only [hn, pow_succ, pow_zero, true_iff] <;> omega

end Sys2Proof.Machine
end

section
/-! PROOFS. Which words are illegal, that no step stops the machine, and which flags a response carries (60_exceptions.md
R300 to R304). -/

namespace Sys2Proof

/-- The tests of R77, read forwards: a word is illegal where one of them fails. -/
theorem decode_eq_error_iff (cmd : Command) : (∃ e, decode cmd = .error e) ↔ rsvField cmd ≠ 0 ∨
    operationAt (widthOfWsel (wselField cmd)) (arityField cmd + 2) (pwField cmd) (psField cmd) (opcField cmd) = none ∨
    (opcField cmd ≠ 0x28 ∧ arityField cmd ≠ 0) ∨ (opcField cmd = 0x28 ∧ arityField cmd = 3) ∨
    (opcField cmd ≠ 0x08 ∧ opcField cmd ≠ 0x09 ∧ (pwField cmd ≠ 0 ∨ psField cmd ≠ 0)) := by
  have hparam : commandField cmd 10 14 ≠ 0 ↔ pwField cmd ≠ 0 ∨ psField cmd ≠ 0 := by
    rw [parameterField_eq]; omega
  rw [← hparam, ← and_assoc (a := opcField cmd ≠ 0x08)]
  unfold decode
  by_cases hrsv : rsvField cmd = 0
  · rw [if_neg (not_not.2 hrsv)]
    split
    next hop => exact iff_of_true ⟨_, rfl⟩ (.inr (.inl hop))
    next hop =>
      split_ifs with harity hthree hpar
      · exact iff_of_true ⟨_, rfl⟩ (.inr (.inr (.inl harity)))
      · exact iff_of_true ⟨_, rfl⟩ (.inr (.inr (.inr (.inl hthree))))
      · exact iff_of_true ⟨_, rfl⟩ (.inr (.inr (.inr (.inr hpar))))
      · simp [hop, hrsv, harity, hthree, hpar]
  · rw [if_pos hrsv]
    exact iff_of_true ⟨_, rfl⟩ (.inl hrsv)

/-- A vector is in a list exactly where its number is among the numbers of the list. -/
theorem mem_iff_toNat_mem {n : Nat} (x : BitVec n) (l : List (BitVec n)) : x ∈ l ↔ x.toNat ∈ l.map BitVec.toNat :=
  (List.mem_map_of_injective BitVec.toNat_injective).symm

end Sys2Proof

namespace Sys2Proof.Machine

/-! ## The flags of R302 and R303 -/

/-- The response carries INV and OV as R302 and R303 list them for the command and its operands, and no ILL. -/
structure HasListedFlags (i : Instr) (q : Request) (r : Response) : Prop where
  inv : r.inv = true ↔ OutOfDomain i q
  ov : r.ov = true ↔ ResultOverflows i q
  ill : r.ill = false

section
variable {i : Instr} {q : Request} {r : Response} {p : Prop}

theorem NoFlags.hasListedFlags (h : NoFlags r) (hd : ¬ OutOfDomain i q) (ho : ¬ ResultOverflows i q) :
    HasListedFlags i q r := by
  obtain ⟨hov, hinv, hill⟩ := h
  exact ⟨iff_of_false (Bool.eq_false_iff.1 hinv) hd, iff_of_false (Bool.eq_false_iff.1 hov) ho, hill⟩

theorem OnlyINV.hasListedFlags (h : OnlyINV r p) (hd : p ↔ OutOfDomain i q) (ho : ¬ ResultOverflows i q) :
    HasListedFlags i q r := by
  obtain ⟨hov, hinv, hill⟩ := h
  exact ⟨hinv.trans hd, iff_of_false (Bool.eq_false_iff.1 hov) ho, hill⟩

theorem OnlyOV.hasListedFlags (h : OnlyOV r p) (hd : ¬ OutOfDomain i q) (ho : p ↔ ResultOverflows i q) :
    HasListedFlags i q r := by
  obtain ⟨hov, hinv, hill⟩ := h
  exact ⟨iff_of_false (Bool.eq_false_iff.1 hinv) hd, hov.trans ho, hill⟩

/-- No operands are both outside the domain and such that the result overflows: R303 asks for a divisor of −1, or an align
in the domain. -/
theorem not_resultOverflows_of_outOfDomain (h : OutOfDomain i q) : ¬ ResultOverflows i q := by
  cases i with
  | alignto w => exact fun ⟨hb, _⟩ => hb h
  | alignp2 w => exact fun ⟨hb, _⟩ => h hb
  | divceils w | divfloors w =>
    rintro ⟨-, hb⟩
    exact absurd (hb.symm.trans h) (by decide)
  | maskto w | masklo w | isintn w | isuintn w | maxintn w | minintn w | maxuintn w | ctlog2 w | aligndn w
  | divnear w | divceil w | mod w => exact not_false
  | _ => exact False.elim h

end

/-! ## The operations with both flags -/

section
variable (w : Width) (q : Request)

theorem respAlignto_hasListedFlags : HasListedFlags (.alignto w) q (respAlignto w q) := by
  by_cases hb : unsignedValue w q.b = 0
  · rw [respAlignto_of_zero hb]
    exact (onlyINV_resultINV _ (iff_of_true rfl hb)).hasListedFlags Iff.rfl
      (not_resultOverflows_of_outOfDomain (i := .alignto w) hb)
  · rw [respAlignto_of_ne_zero hb]
    exact (zeroOnOverflow_spec w _).2.hasListedFlags hb
      ((noAlignedValueFits_iff w _ _ hb).symm.trans (and_iff_right hb).symm)

theorem respAlignp2_hasListedFlags : HasListedFlags (.alignp2 w) q (respAlignp2 w q) := by
  by_cases hb : ∃ k, unsignedValue w q.b = 2 ^ k
  · rw [respAlignp2_of_two_pow hb]
    exact (onlyOV_resultOV _ (exceedsUnsigned_iff w _)).hasListedFlags (not_not.2 hb)
      ((noAlignedValueFits_iff w _ 0 (ne_zero_of_two_pow hb)).symm.trans (and_iff_right hb).symm)
  · rw [respAlignp2_of_not_two_pow hb]
    exact (onlyINV_resultINV _ (iff_of_true rfl hb)).hasListedFlags Iff.rfl
      (not_resultOverflows_of_outOfDomain (i := .alignp2 w) hb)

/-- Both signed divisions test for a zero divisor and then for the pair that overflows (R182, R183). -/
theorem signedQuotient_hasListedFlags {w : Width} {q : Request} {i : Instr} (hi : i = .divceils w ∨ i = .divfloors w)
    (c : Int) : HasListedFlags i q (signedQuotient w q c) := by
  have hd : OutOfDomain i q ↔ signedValue w q.b = 0 := by rcases hi with rfl | rfl <;> exact Iff.rfl
  have ho : ResultOverflows i q ↔ DivisionOverflows w q := by rcases hi with rfl | rfl <;> exact Iff.rfl
  by_cases hb : signedValue w q.b = 0
  · rw [signedQuotient_of_zero hb]
    exact (onlyINV_zeroDivisor hb).hasListedFlags hd.symm (not_resultOverflows_of_outOfDomain (hd.2 hb))
  by_cases h : DivisionOverflows w q
  · rw [signedQuotient_of_overflow h]
    exact (onlyOV_resultOV _ (iff_of_true rfl h)).hasListedFlags (mt hd.1 hb) ho.symm
  · rw [signedQuotient_of_fits hb h]
    exact (noFlags_result _).hasListedFlags (mt hd.1 hb) (mt ho.1 h)

end

/-! ## Every operation -/

/-- Whatever is said of the completion of a command holds of its response function. -/
theorem responseOf_of_completes {i : Instr} {P : Request → Response → Prop} (h : Completes i P) (q : Request) :
    P q (responseOf i q) := by
  obtain ⟨r, hr, hp⟩ := h { State.reset with now := { Cycle.idle with request := q } }
  have hresp : responseOf i q = r := by simpa [exec_eq, State.enqueue] using hr
  exact hresp ▸ hp

theorem responseOf_of_implements {opc : BitVec 6} {op : Width → Instr} {P : Width → Request → Response → Prop}
    (h : Implements opc op P) (w : Width) (q : Request) : P w q (responseOf (op w) q) :=
  responseOf_of_completes (h w).2 q

theorem noFlags_respIsshs (w : Width) (W S : Nat) (q : Request) : NoFlags (respIsshs w W S q) := by
  rw [respIsshs]
  split <;> exact noFlags_result _

theorem WrapsAround.onlyOV {w : Width} {r : Response} {z : Int} (h : WrapsAround w r z) : OnlyOV r (DoesNotFit w z) := by
  obtain ⟨-, -, hov⟩ := h
  exact hov

/-- The exact sum of R200, for every operand count, the ill-formed ones too (log entry 11). -/
theorem respSatadd_saturates (w : Width) (k : Nat) (q : Request) : Saturates w (respSatadd w k q)
    (unsignedValue w q.a + unsignedValue w q.b + (if 3 ≤ k then unsignedValue w q.c else 0) +
      (if k = 4 then unsignedValue w q.d else 0)) :=
  saturates_of_eq (by simp only [respSatadd, readU_eq])

/-- Every response carries the flags that the lists of R302 and R303 give it: most operations set one flag or none, as their
own statements say. -/
theorem responseOf_hasListedFlags (i : Instr) (q : Request) : HasListedFlags i q (responseOf i q) := by
  cases i with
  | maskto w | masklo w | isuintn w | maxintn w | minintn w | maxuintn w =>
    exact (onlyINV_resultINV _ (countOutOfDomain_iff w _)).hasListedFlags Iff.rfl not_false
  | isintn w =>
    obtain ⟨-, -, hinv⟩ := responseOf_of_implements rangeTestsGiveTheMathematicalAnswer.1 w q
    exact hinv.hasListedFlags Iff.rfl not_false
  | ctlog2 w =>
    obtain ⟨-, -, hinv⟩ := responseOf_of_implements ctlog2IsTheLogarithm w q
    exact hinv.hasListedFlags Iff.rfl not_false
  | aligndn w =>
    obtain ⟨-, -, hinv⟩ := responseOf_of_implements aligndnIsTheGreatestMultiple w q
    exact hinv.hasListedFlags Iff.rfl not_false
  | divnear w =>
    obtain ⟨-, -, hinv⟩ := responseOf_of_implements divnearIsTheNearestQuotient w q
    exact hinv.hasListedFlags Iff.rfl not_false
  | divceil w =>
    obtain ⟨-, -, hinv⟩ := responseOf_of_implements divceilIsTheCeiling w q
    exact hinv.hasListedFlags Iff.rfl not_false
  | mod w => exact respMod_onlyINV.hasListedFlags Iff.rfl not_false
  | p2ceil w =>
    obtain ⟨-, -, -, hov⟩ := responseOf_of_implements p2ceilIsTheLeastPowerAtOrAbove w q
    exact hov.hasListedFlags not_false Iff.rfl
  | nextp2 w =>
    obtain ⟨-, -, hov⟩ := responseOf_of_implements nextp2IsTheLeastPowerAbove w q
    exact hov.hasListedFlags not_false Iff.rfl
  | satadd w k => exact (respSatadd_saturates w k q).2.hasListedFlags not_false Iff.rfl
  | satmul w => exact (saturates_of_eq (respSatmul_eq w q)).2.hasListedFlags not_false Iff.rfl
  | satmad w => exact (saturates_of_eq (respSatmad_eq w q)).2.hasListedFlags not_false Iff.rfl
  | addo w => exact (wrapsAround_of_eq (respAddo_eq w q)).onlyOV.hasListedFlags not_false Iff.rfl
  | subo w => exact (wrapsAround_of_eq (respSubo_eq w q)).onlyOV.hasListedFlags not_false Iff.rfl
  | mulo w => exact (wrapsAround_of_eq (respMulo_eq w q)).onlyOV.hasListedFlags not_false Iff.rfl
  | alignto w => exact respAlignto_hasListedFlags w q
  | alignp2 w => exact respAlignp2_hasListedFlags w q
  | divceils w =>
    rw [responseOf, respDivceils_eq]
    exact signedQuotient_hasListedFlags (.inl rfl) _
  | divfloors w =>
    rw [responseOf, respDivfloors_eq]
    exact signedQuotient_hasListedFlags (.inr rfl) _
  | isshmask w =>
    obtain ⟨-, -, hno⟩ := responseOf_of_implements isshmaskFindsTheRun w q
    exact hno.hasListedFlags not_false not_false
  | isshs w W S => exact (noFlags_respIsshs w W S q).hasListedFlags not_false not_false
  | revb w | ispow2 w | isshu w W S | clz w | ctz w | shl w | shr w | minalign w | divsovf w =>
    exact (noFlags_result _).hasListedFlags not_false not_false

/-! ## The value on R outside the domain -/

section
variable {w : Width} {q : Request}

/-- A bit count above the width is cut at the width (R100, R101, R111, R112). -/
theorem respMaskto_toNat_of_gt (h : w.bits < q.a.toNat) : (respMaskto w q).r.toNat = 2 ^ w.bits - 1 := by
  rw [respMaskto_toNat, min_eq_right h.le]

theorem respMasklo_toNat_of_gt (h : w.bits < q.a.toNat) : (respMasklo w q).r.toNat = 2 ^ w.bits - 1 := by
  rw [respMasklo_toNat, min_eq_right h.le, Nat.sub_self, pow_zero, Nat.mul_one]

theorem respMaxintn_toInt_of_gt (h : w.bits < q.a.toNat) : (respMaxintn w q).r.toInt = 2 ^ (w.bits - 1) - 1 := by
  rw [respMaxintn_toInt, if_neg (Nat.ne_zero_of_lt h), min_eq_right h.le]

theorem respMinintn_toInt_of_gt (h : w.bits < q.a.toNat) : (respMinintn w q).r.toInt = -2 ^ (w.bits - 1) := by
  rw [respMinintn_toInt, if_neg (Nat.ne_zero_of_lt h), min_eq_right h.le]

/-- Every value of the width fits in a count of bits above it (R109, R110). -/
theorem respIsintn_r_of_gt (h : w.bits < q.a.toNat) : (respIsintn w q).r = 1 := by
  obtain ⟨-, hanswer, -⟩ := responseOf_of_implements rangeTestsGiveTheMathematicalAnswer.1 w q
  obtain ⟨hlo, hhi⟩ := signedValue_bounds w q.b
  refine (hanswer (Nat.ne_zero_of_lt h)).1 ((signedRange_clampCount_iff ⟨hlo, hhi⟩ _).1 ?_)
  rw [clampCount_of_gt h]
  exact ⟨hlo, Int.le_sub_one_of_lt hhi⟩

theorem respIsuintn_r_of_gt (h : w.bits < q.a.toNat) : (respIsuintn w q).r = 1 := by
  obtain ⟨hanswer, -⟩ := responseOf_of_implements rangeTestsGiveTheMathematicalAnswer.2 w q
  exact hanswer.1 ((unsignedValue_lt w q.b).trans (Nat.pow_lt_pow_right (by decide) h))

end

theorem respCtlog2_toNat (w : Width) (q : Request) : (respCtlog2 w q).r.toNat = Nat.log2 (unsignedValue w q.a) := by
  obtain ⟨-, hlog, -⟩ := responseOf_of_implements ctlog2IsTheLogarithm w q
  by_cases h0 : unsignedValue w q.a = 0
  · rw [h0, respCtlog2_of_zero h0]; rfl
  · exact ((Nat.log2_eq_iff h0).2 (hlog h0)).symm

/-- Outside the domain R carries what the operation's rule defines there (R302). -/
theorem carriesDefinedValue_responseOf {i : Instr} {q : Request} (h : OutOfDomain i q) :
    CarriesDefinedValue i q (responseOf i q).r := by
  cases i with
  | maskto w | maxuintn w => exact respMaskto_toNat_of_gt h
  | masklo w => exact respMasklo_toNat_of_gt h
  | isintn w => exact respIsintn_r_of_gt h
  | isuintn w => exact respIsuintn_r_of_gt h
  | maxintn w => exact respMaxintn_toInt_of_gt h
  | minintn w => exact respMinintn_toInt_of_gt h
  | ctlog2 w => exact respCtlog2_toNat w q
  | alignto w => exact ((responseOf_of_implements aligntoIsTheLeastCongruentValue w q).1 h).1
  | alignp2 w => exact ((responseOf_of_implements alignp2RoundsUpAndKeepsTheCarry w q).1 h).1
  | aligndn w => exact (responseOf_of_implements aligndnIsTheGreatestMultiple w q).1 h
  | divnear w => exact (responseOf_of_implements divnearIsTheNearestQuotient w q).1 h
  | divceil w => exact (responseOf_of_implements divceilIsTheCeiling w q).1 h
  | divceils w => exact ((responseOf_of_implements signedDivisionsRoundExactly.1 w q).1 h).1
  | divfloors w => exact ((responseOf_of_implements signedDivisionsRoundExactly.2 w q).1 h).1
  | mod w =>
    rw [CarriesDefinedValue]
    split
    next hb => exact (responseOf_of_implements modIsTheNonNegativeResidue.1 w q).1 hb
    next hb => exact respMod_toInt_of_ne_zero hb
  | _ => exact False.elim h

/-- Settles O20: the flags are the listed ones, and INV puts the operands outside the domain. -/
theorem invExactlyOutOfDomain : Obligations.InvExactlyOutOfDomain := by
  refine fun i => completes_of_responseOf fun q => ?_
  have hinv := (responseOf_hasListedFlags i q).inv
  exact ⟨hinv, fun h => carriesDefinedValue_responseOf (hinv.1 h)⟩

/-! ## The value on R of a result that overflows -/

/-- Where the result overflows R carries what the operation's rule names (R303). -/
theorem carriesOverflowValue_responseOf {i : Instr} {q : Request} (h : ResultOverflows i q) :
    CarriesOverflowValue i q (responseOf i q).r := by
  have hov := (responseOf_hasListedFlags i q).ov.2 h
  cases i with
  | p2ceil w =>
    obtain ⟨-, -, hr, -⟩ := responseOf_of_implements p2ceilIsTheLeastPowerAtOrAbove w q
    exact hr h
  | nextp2 w =>
    obtain ⟨-, hr, -⟩ := responseOf_of_implements nextp2IsTheLeastPowerAbove w q
    exact hr h
  | alignto w =>
    obtain ⟨hb, hno⟩ := h
    rw [responseOf, respAlignto_of_ne_zero hb, zeroOnOverflow_of_ge ((noAlignedValueFits_iff w _ _ hb).1 hno)]
    rfl
  | alignp2 w =>
    obtain ⟨hb, -⟩ := h
    obtain ⟨m, -, -, -, -, hr, hm, -⟩ := (responseOf_of_implements alignp2RoundsUpAndKeepsTheCarry w q).2 hb
    rw [hm.1 hov] at hr
    refine hr.trans ?_
    cases w <;> rfl
  | satadd w k => exact (respSatadd_saturates w k q).exact.2 hov
  | satmul w => exact (saturates_of_eq (respSatmul_eq w q)).exact.2 hov
  | satmad w => exact (saturates_of_eq (respSatmad_eq w q)).exact.2 hov
  | divceils w =>
    rw [responseOf, respDivceils_eq, signedQuotient_of_overflow h]
    exact writeS_sMin_toInt w
  | divfloors w =>
    rw [responseOf, respDivfloors_eq, signedQuotient_of_overflow h]
    exact writeS_sMin_toInt w
  | addo w => exact (wrapsAround_of_eq (respAddo_eq w q)).1
  | subo w => exact (wrapsAround_of_eq (respSubo_eq w q)).1
  | mulo w => exact (wrapsAround_of_eq (respMulo_eq w q)).1
  | _ => exact False.elim h

/-- Settles O21: the flags are the listed ones, and OV says that the result overflows. -/
theorem ovExactlyOnOverflow : Obligations.OvExactlyOnOverflow := by
  refine fun i => completes_of_responseOf fun q => ?_
  have hov := (responseOf_hasListedFlags i q).ov
  exact ⟨hov, fun h => carriesOverflowValue_responseOf (hov.1 h)⟩

/-! ## One flag at most -/

/-- The lists of R302 and R303 have no operands in common (R304). -/
theorem HasListedFlags.not_ov_and_inv {i : Instr} {q : Request} {r : Response} (h : HasListedFlags i q r) :
    ¬ (r.ov = true ∧ r.inv = true) :=
  fun ⟨hov, hinv⟩ => not_resultOverflows_of_outOfDomain (h.inv.1 hinv) (h.ov.1 hov)

/-- A response has ILL alone, for an illegal word, or not at all, for a legal one, and then one other flag at most. -/
theorem respond_flags (q : Request) : respond q = illegalResponse ∨
    (respond q).ill = false ∧ ¬ ((respond q).ov = true ∧ (respond q).inv = true) := by
  cases hd : decode q.cmd with
  | error e => exact .inl (respond_of_decode_error hd)
  | ok i =>
    have hflags := responseOf_hasListedFlags i q
    rw [respond_of_decode_ok hd]
    exact .inr ⟨hflags.ill, hflags.not_ov_and_inv⟩

/-- Settles O22: no operands are in both lists, and an illegal word sets ILL alone. -/
theorem atMostOneFlag : Obligations.AtMostOneFlag := by
  refine ⟨fun i => completes_of_responseOf fun q => ?legal, fun s t ha h => ?accepted⟩
  case legal =>
    have hflags := responseOf_hasListedFlags i q
    exact ⟨hflags.ill, hflags.not_ov_and_inv⟩
  case accepted =>
    refine ⟨Entry.fresh s.now.request, by simp [queue_of_step_accepts ha h], ?_⟩
    rw [Entry.fresh_response]
    rcases respond_flags s.now.request with hr | ⟨hill, hboth⟩
    · rw [hr]
      decide
    · rw [hill]
      exact ⟨fun hi => Bool.false_ne_true hi.1, fun hi => Bool.false_ne_true hi.1, fun hi => hboth hi.symm⟩

/-! ## Illegal words, and no stop -/

/-- Settles O3: the decoder's tests are the five kinds of R301, and an accepting edge appends the response of its request. -/
theorem illegalWordsAndTheirResponse : Obligations.IllegalWordsAndTheirResponse := by
  refine ⟨fun cmd => ?kinds, fun s e ha hd => ?illegal, fun s i ha hd => ?legal⟩
  case kinds =>
    have hopc : (cmd.extractLsb 5 0).toNat = opcField cmd := extractLsb_toNat_eq_field cmd rfl
    have hrsv : (cmd.extractLsb 31 24).toNat = rsvField cmd := extractLsb_toNat_eq_field cmd rfl
    have harity : (cmd.extractLsb 9 8).toNat = arityField cmd := extractLsb_toNat_eq_field cmd rfl
    have hpw : (cmd.extractLsb 16 10).toNat = pwField cmd := extractLsb_toNat_eq_field cmd rfl
    have hps : (cmd.extractLsb 23 17).toNat = psField cmd := extractLsb_toNat_eq_field cmd rfl
    rw [decode_eq_error_iff, operationAt_eq_none_iff _ _ _ _ (commandField_lt _ _ _), or_assoc, mem_iff_toNat_mem]
    simp only [ne_eq, ← BitVec.toNat_inj, hopc, hrsv, harity, hpw, hps]
    exact Iff.rfl
  case illegal =>
    have hr : Entry.fresh s.now.request = { request := s.now.request, age := 0, response := illegalResponse } := by
      rw [Entry.fresh, respond_of_decode_error hd]
    exact ⟨_, step_of_accepts ha, (queue_of_step_accepts ha (step_of_accepts ha)).trans (by rw [hr]; rfl)⟩
  case legal =>
    refine ⟨_, _, step_of_accepts ha, rfl, ?_⟩
    rw [respond_of_decode_ok hd]
    exact (responseOf_hasListedFlags i s.now.request).ill

/-- Settles O18: an edge without reset drops at most the oldest entry of Q, ages the others, and appends what it accepts. -/
theorem noCommandStopsOrDisturbs : Obligations.NoCommandStopsOrDisturbs := by
  intro s
  obtain ⟨t, ht⟩ := step_next s
  refine ⟨t, ht, fun h0 => ⟨s.accepted.map Entry.fresh, ?_⟩⟩
  rw [queue_of_step h0 ht, State.serve_queue]
  cases s.consumes with
  | true => rw [if_pos rfl, if_pos rfl, List.drop_one]; rfl
  | false => rfl

end Sys2Proof.Machine
end

section
/-! PROOFS. Reset, the sampling of the request ports, and the fairness of REQ_READY: a stall ends, a full queue drains, and a
tireless host is accepted again and again (10_state.md R34, R45; 70_reset_and_hazards.md R400 to R406). -/

namespace Sys2Proof.Machine

/-! ## The request ports -/

/-- Settles O19: an edge that accepts nothing does not look at the request ports, and one that accepts appends the fresh entry of
what stands on them. -/
theorem portsAreSampledOnlyAtAcceptance : Obligations.PortsAreSampledOnlyAtAcceptance := by
  refine ⟨fun s q ha => step_requesting_of_not_accepts ha q, fun s t ha h => ?_⟩
  exact ⟨Entry.fresh s.now.request, by simp [queue_of_step_accepts ha h], rfl⟩

/-! ## The reset edge -/

theorem not_accepts_of_rst {s : State} (h : s.now.rst = true) : s.accepts = false := by
  simp [State.accepts, h]

/-- Settles O14: a reset edge does not look at REQ_VALID, and empties the queue. -/
theorem resetEdgeEmptiesTheQueue : Obligations.ResetEdgeEmptiesTheQueue :=
  fun _ h => ⟨not_accepts_of_rst h, _, step_of_rst h, rfl, rfl, rfl⟩

/-- A reset edge leads where the edge of an idle cycle with an empty queue leads: nothing of the cycle that resets and
of the queue before it is left (R400, R401). -/
theorem step_idle_of_rst {s : State} (h : s.now.rst = true) :
    step { s with now := Cycle.idle, queue := [] } = step s :=
  (step_of_not_accepts rfl rfl).trans (step_of_rst h).symm

/-- Settles O15: after the reset edge the queue is empty, so the ledger says that what has been delivered and what is still in
flight are together what has been accepted since. -/
theorem resetDiscardsWhatIsInFlight : Obligations.ResetDiscardsWhatIsInFlight := by
  intro k s u h hup hrec hu
  have hn : u.NoReset :=
    noReset_of_step (s := { s with now := Cycle.idle, queue := [] }) ⟨rfl, hup, hrec⟩ ((step_idle_of_rst h).trans hu)
  have hempty : u.queue = [] := by
    rw [step_of_rst h] at hu
    cases hu
    rfl
  obtain ⟨requests, responses, t, ht, hledger⟩ := responsesInAcceptanceOrder k u hn
  refine ⟨requests, responses, t, ht, t.queue.map Entry.response, ?_⟩
  simpa [hempty] using hledger.symm

/-! ## Runs -/

theorem exists_reaches (k : Nat) : ∀ s : State, ∃ t, Reaches k s t := by
  induction k with
  | zero => exact fun s => ⟨s, rfl⟩
  | succ k ih =>
    intro s
    obtain ⟨t, ht⟩ := step_next s
    obtain ⟨u, hu⟩ := ih t
    exact ⟨u, (reaches_succ ht).2 hu⟩

theorem reaches_add {j k : Nat} {s t u : State} (hj : Reaches j s t) (hk : Reaches k t u) : Reaches (j + k) s u := by
  induction j generalizing s with
  | zero =>
    cases hj
    rwa [Nat.zero_add]
  | succ j ih =>
    obtain ⟨v, hv⟩ := step_next s
    rw [Nat.add_right_comm]
    exact (reaches_succ hv).2 (ih ((reaches_succ hv).1 hj))

/-- What every step keeps, every run keeps. -/
theorem of_reaches {P : State → Prop} (hP : ∀ {s t : State}, P s → step s = .next t → P t) {k : Nat} {s t : State}
    (h : Reaches k s t) (hs : P s) : P t := by
  induction k generalizing s with
  | zero =>
    cases h
    exact hs
  | succ k ih =>
    obtain ⟨u, hu⟩ := step_next s
    exact ih ((reaches_succ hu).1 h) (hP hs hu)

/-! ## A stall ends -/

theorem not_accepts_of_stall {s : State} (hs : s.stall ≠ 0) : s.accepts = false := by
  refine Bool.eq_false_iff.2 fun ha => ?_
  obtain ⟨h0, -, hr⟩ := s.accepts_iff.1 ha
  rw [reqReady_of_room h0 (room_of_accepts ha)] at hr
  exact hs (of_decide_eq_true hr)

/-- The queue grows at an accepting edge alone. -/
theorem length_le_of_not_accepts {s t : State} (ha : s.accepts = false) (h : step s = .next t) :
    t.queue.length ≤ s.queue.length := by
  rcases step_cases h with ⟨-, rfl⟩ | ⟨-, ha', -⟩ | ⟨-, -, rfl⟩
  · exact Nat.zero_le _
  · simp [ha] at ha'
  · exact serve_length_le s

/-- One edge of a stall takes one cycle off it, and leaves room where there was room. -/
theorem stall_of_step {s t : State} {n : Nat} (hs : s.stall = n + 1) (h : step s = .next t) :
    t.stall = n ∧ (s.queue.length < s.params.maxOutstanding → t.queue.length < t.params.maxOutstanding) := by
  obtain ⟨hparams, -, -, -, hstall, -⟩ := step_outside h
  have hlen := length_le_of_not_accepts (not_accepts_of_stall (by omega)) h
  exact ⟨by simp [hstall, State.nextStall, hs], fun hroom => hparams ▸ hlen.trans_lt hroom⟩

/-- After as many edges as the stall lasts there is still room in the queue, and REQ_READY is 1 but in a reset cycle. -/
theorem ready_after_stall {n : Nat} : ∀ {s : State}, s.stall = n → s.queue.length < s.params.maxOutstanding →
    ∃ t, Reaches n s t ∧ t.queue.length < t.params.maxOutstanding ∧ (t.now.rst = false → t.reqReady = true) := by
  induction n with
  | zero => exact fun {s} hs hroom => ⟨s, rfl, hroom, fun h0 => by simp [reqReady_of_room h0 hroom, hs]⟩
  | succ n ih =>
    intro s hs hroom
    obtain ⟨t, ht⟩ := step_next s
    obtain ⟨hstall, hkeeps⟩ := stall_of_step hs ht
    obtain ⟨u, hu, hready⟩ := ih hstall (hkeeps hroom)
    exact ⟨u, (reaches_succ ht).2 hu, hready⟩

/-- A host that asks is accepted at the end of the stall, where the queue has room. -/
theorem accepts_after_stall {s : State} (hn : s.NoReset) (hasks : s.HostAsks)
    (hroom : s.queue.length < s.params.maxOutstanding) : ∃ t, Reaches s.stall s t ∧ t.accepts = true := by
  obtain ⟨t, ht, -, hready⟩ := ready_after_stall rfl hroom
  have h0 : t.now.rst = false := now_rst_of_noReset (of_reaches noReset_of_step ht hn)
  obtain ⟨-, hvalid, -⟩ := of_reaches hostAsks_of_step ht hasks
  exact ⟨t, ht, t.accepts_iff.2 ⟨h0, hvalid, hready h0⟩⟩

/-! ## A full queue drains -/

/-- How many edges the oldest entry still lacks of LATENCY (R36). -/
def State.wait (s : State) : Nat :=
  match s.queue with
  | [] => 0
  | e :: _ => s.params.latency - e.age

theorem wait_of_front {s : State} {e : Entry} {q : List Entry} (hq : s.queue = e :: q) :
    s.wait = s.params.latency - e.age := by
  simp [State.wait, hq]

/-- At an edge of a full queue a ready host takes the oldest entry, or that entry comes nearer to LATENCY. -/
theorem drains_of_step {s t : State} (hn : s.NoReset) (hready : s.now.rspReady = true)
    (hfull : s.params.maxOutstanding ≤ s.queue.length) (h : step s = .next t) :
    t.queue.length < s.queue.length ∨ t.queue.length = s.queue.length ∧ t.wait < s.wait := by
  have ha : s.accepts = false := Bool.eq_false_iff.2 fun ha => (room_of_accepts ha).not_ge hfull
  have hserve : t.queue = s.serve.queue := by
    simpa [State.accepted, ha] using queue_of_step (now_rst_of_noReset hn) h
  obtain ⟨e, q, hq⟩ := List.exists_cons_of_length_pos (Nat.lt_of_lt_of_le (Nat.succ_pos _) hfull)
  cases hc : s.consumes with
  | true => exact .inl (by simp [hserve, hc, hq])
  | false =>
    have hqt : t.queue = e.older :: q.map Entry.older := by simp [hserve, hc, hq]
    have hyoung : e.age < s.params.latency := by simpa [State.consumes, hready, rspValid_of_front hq] using hc
    obtain ⟨hparams, -⟩ := step_outside h
    refine .inr ⟨by simp [hqt, hq], ?_⟩
    rw [wait_of_front hqt, wait_of_front hq, hparams, Entry.older_age]
    omega

/-- A host that takes responses without end brings the queue to room, by the entries there are and then by the wait of the
oldest. -/
theorem room_returns (s : State) (hn : s.NoReset) (htakes : s.HostTakes) :
    ∃ k t, Reaches k s t ∧ t.queue.length < t.params.maxOutstanding := by
  by_cases hroom : s.queue.length < s.params.maxOutstanding
  · exact ⟨0, s, rfl, hroom⟩
  obtain ⟨t, ht⟩ := step_next s
  have hless := drains_of_step hn htakes.2.1 (not_lt.1 hroom) ht
  obtain ⟨k, u, hu, hroom'⟩ := room_returns t (noReset_of_step hn ht) (hostTakes_of_step htakes ht)
  exact ⟨k + 1, u, (reaches_succ ht).2 hu, hroom'⟩
termination_by (s.queue.length, s.wait)
decreasing_by exact Prod.lex_def.2 hless

/-- After any number of edges a tireless host is accepted once more: the queue comes to room, and then the stall ends. -/
theorem accepts_again {s : State} (hn : s.NoReset) (hasks : s.HostAsks) (htakes : s.HostTakes) (m : Nat) :
    ∃ k t, m ≤ k ∧ Reaches k s t ∧ t.accepts = true := by
  obtain ⟨t, ht⟩ := exists_reaches m s
  obtain ⟨k, u, hu, hroom⟩ := room_returns t (of_reaches noReset_of_step ht hn) (of_reaches hostTakes_of_step ht htakes)
  have hsu := reaches_add ht hu
  obtain ⟨v, hv, hacc⟩ :=
    accepts_after_stall (of_reaches noReset_of_step hsu hn) (of_reaches hostAsks_of_step hsu hasks) hroom
  exact ⟨_, v, by omega, reaches_add hsu hv, hacc⟩

/-- Settles O13: a stall of n cycles ends after n edges, and a full queue drains, so the host need only wait. -/
theorem readinessReturns : Obligations.ReadinessReturns :=
  ⟨fun _ => ready_after_stall rfl, fun _ => accepts_after_stall, fun _ => accepts_again⟩

end Sys2Proof.Machine
end
